-- ==== Sys2Proof/Word.lean ====
section
/-! DEFINITION. The word types: the two element widths of the block (spec/20_memory.md R38; spec/10_state.md R25). -/

namespace Sys2Proof

/-- An 8-bit element: a grey cell, a packed byte, a character code, an 8-bit register. -/
abbrev Byte := BitVec 8

/-- A 16-bit element: an offset, a charmap entry, a 16-bit register. -/
abbrev Half := BitVec 16

end Sys2Proof
end

