-- ==== Sys2Proof/Syntax.lean ====
section
/-! DEFINITION. The nine commands, one constructor per row of spec/opcode_table.json (spec/30_encoding.md R47). -/

namespace Sys2Proof

/-- A command. Only `SELR` has an operand (spec/30_encoding.md R48): a row offset, 0..7 where well formed. -/
inductive Instr where
  /-- `NOP` (spec/40_bitcolumn.md R59). -/
  | nop
  /-- `PACKC`, pack column (R60). -/
  | packc
  /-- `UNPKC`, unpack column (R61). -/
  | unpkc
  /-- `SELR i`, select row (R62). -/
  | selr (i : Nat)
  /-- `SERN`, serial next (R63). -/
  | sern
  /-- `FENC`, frame encode (spec/41_framecodec.md R67). -/
  | fenc
  /-- `FDEC`, frame decode (R69). -/
  | fdec
  /-- `GSCAN`, glyph scan (spec/42_glyph.md R76). -/
  | gscan
  /-- `CMAP`, build charmap (R80). -/
  | cmap
deriving DecidableEq, Repr

end Sys2Proof
end

