-- ==== Sys2Proof/WellFormed.lean ====
section
/-! DEFINITION. Which commands are well formed: the one check is on SELR's operand (spec/30_encoding.md R46, R48). -/

namespace Sys2Proof

/-- `SELR`'s operand is a row offset 0..7; no other command has an operand (R48). -/
def Instr.wellFormed : Instr → Bool
  | .nop => true
  | .packc => true
  | .unpkc => true
  | .selr i => decide (i < 8)
  | .sern => true
  | .fenc => true
  | .fdec => true
  | .gscan => true
  | .cmap => true

/-- The check as a proposition. -/
abbrev WellFormed (i : Instr) : Prop := i.wellFormed = true

end Sys2Proof
end

