-- ==== Sys2Proof/Decode.lean ====
section
/-! DEFINITION. Decoding a command word, total on its 256 values, and the encoder (spec/30_encoding.md R45 to R49). -/

namespace Sys2Proof

/-- A row of the opcode map (R47): a word `w` selects it iff `w &&& mask = pattern`. -/
structure OpRow where
  mnemonic : String
  mask : BitVec 8
  pattern : BitVec 8
  /-- The command the row stands for, its operand taken from the word (R48). -/
  build : BitVec 8 → Instr

/-- The row's selection test (R47). -/
def OpRow.selects (r : OpRow) (w : BitVec 8) : Bool := w &&& r.mask == r.pattern

/-- Operand assembly (R48): `i = w[2:0]`, used as is. -/
def rowOperand (w : BitVec 8) : Nat := (w.extractLsb' 0 3).toNat

/-- The opcode map (R47), in the table's order. -/
def opTable : List OpRow :=
  [ ⟨"NOP", 0xFF, 0x00, fun _ => .nop⟩,
    ⟨"PACKC", 0xFF, 0x10, fun _ => .packc⟩,
    ⟨"UNPKC", 0xFF, 0x20, fun _ => .unpkc⟩,
    ⟨"SELR", 0xF8, 0x30, fun w => .selr (rowOperand w)⟩,
    ⟨"SERN", 0xFF, 0x40, fun _ => .sern⟩,
    ⟨"FENC", 0xFF, 0x50, fun _ => .fenc⟩,
    ⟨"FDEC", 0xFF, 0x60, fun _ => .fdec⟩,
    ⟨"GSCAN", 0xFF, 0x70, fun _ => .gscan⟩,
    ⟨"CMAP", 0xFF, 0x80, fun _ => .cmap⟩ ]

/-- Why a word is reserved: the three classes of R49. -/
inductive Reserved where
  /-- `OP` in 0x9..0xF with any `ARG`. -/
  | opcode
  /-- `OP` in 0x0..0x2, 0x4..0x8 with `ARG != 0`. -/
  | argument
  /-- `OP = 0x3` with `ARG[3] = 1`. -/
  | rowBit
deriving DecidableEq, Repr

/-- The class of a reserved word (R49), from `OP = w[7:4]`. -/
def reservedClass (w : BitVec 8) : Reserved :=
  let op := (w.extractLsb' 4 4).toNat
  if 9 ≤ op then .opcode else if op = 3 then .rowBit else .argument

/-- Command decode (R50 step 2): the row the word selects, or the reason it is reserved. -/
def decode (w : BitVec 8) : Except Reserved Instr :=
  match opTable.find? (·.selects w) with
  | some r => .ok (r.build w)
  | none => .error (reservedClass w)

/-- The word of a well-formed command (R46, R47): `OP` in bits 7:4, SELR's operand in bits 2:0. -/
def encode : Instr → BitVec 8
  | .nop => 0x00
  | .packc => 0x10
  | .unpkc => 0x20
  | .selr i => 0x30 ||| BitVec.ofNat 8 i
  | .sern => 0x40
  | .fenc => 0x50
  | .fdec => 0x60
  | .gscan => 0x70
  | .cmap => 0x80

/-- The decoder on a word of the opcode table: a command is one 8-bit word (R45), so its bits are `w`'s lowest `nbits`. -/
def decodeTableWord (nbits w : Nat) : Option Instr :=
  match decode (BitVec.ofNat 8 (w % 2 ^ nbits)) with
  | .ok i => some i
  | .error _ => none

end Sys2Proof
end

