-- ==== Sys2Proof/Config.lean ====
section
/-! DEFINITION. What is fixed for this hardware (the parameter table of spec/00_scope.md R5) and the free values: the
contents of memory elements that nothing has written since reset (spec/93_implementation_defined.md U1). -/

namespace Sys2Proof.Config

/-- `ROWS`: frame height in pixels (R5). -/
@[simp] abbrev rows : Nat := 64
/-- `COLS`: frame width in pixels (R5). -/
@[simp] abbrev cols : Nat := 128
/-- `BAND_H`: rows of a row-band, bits of a packed byte (R5). -/
@[simp] abbrev bandH : Nat := 8
/-- `BANDS` (R5). -/
@[simp] abbrev bands : Nat := 8
/-- `FRAME_BYTES` (R5). -/
@[simp] abbrev frameBytes : Nat := 1024
/-- `THRESH_DEFAULT`: reset value of `THRESH` (R5). -/
@[simp] abbrev threshDefault : Byte := 128
/-- `GLYPH_THRESH`: the fixed threshold of the glyph front end (R5). -/
@[simp] abbrev glyphThresh : Byte := 128
/-- `GLYPH_H`: required height of a glyph sheet (R5). -/
@[simp] abbrev glyphH : Nat := 8
/-- `GLYPH_MASK`: the mask applied to every emitted glyph byte (R5). -/
@[simp] abbrev glyphMask : Byte := 0xFE
/-- `LIGHT`: pixel value written for a set bit on unpack (R5). -/
@[simp] abbrev light : Byte := 0xFF
/-- `DARK`: pixel value written for a clear bit on unpack (R5). -/
@[simp] abbrev dark : Byte := 0x00
/-- `CHARMAP_N`: entries of the charmap (R5). -/
@[simp] abbrev charmapN : Nat := 256
/-- `ABSENT`: -1 as a 16-bit two's-complement charmap entry (R5, R35). -/
@[simp] abbrev absent : Half := 0xFFFF
/-- `PIX_CELLS` (R5). -/
@[simp] abbrev pixCells : Nat := 8192
/-- Elements of `PKD` (spec/10_state.md R25). -/
@[simp] abbrev pkdCells : Nat := 1024
/-- Elements of `GBYTES` (spec/10_state.md R25). -/
@[simp] abbrev gbytesCells : Nat := 1024
/-- `GOFF_CELLS` (R5). -/
@[simp] abbrev goffCells : Nat := 1024
/-- `CS_CELLS` (R5). -/
@[simp] abbrev csCells : Nat := 256
/-- `GW_MAX`: largest glyph-sheet width (R5). -/
@[simp] abbrev gwMax : Nat := 1024

/-! Free values, one function per memory: `draw… epoch a` is what element `a` holds from the `epoch`-th reset until it is
written. No body: nothing can be proved of a value (log entry 1; spec/10_state.md R28; U1 'any value'). -/

/-- What an unwritten cell of `PIX` holds. -/
opaque drawPix : Nat → Nat → Byte
/-- What an unwritten byte of `PKD` holds. -/
opaque drawPkd : Nat → Nat → Byte
/-- What an unwritten element of `GBYTES` holds. -/
opaque drawGbytes : Nat → Nat → Byte
/-- What an unwritten element of `GOFFS` holds. -/
opaque drawGoffs : Nat → Nat → Half
/-- What an unwritten element of `CHARSET` holds. -/
opaque drawCharset : Nat → Nat → Byte
/-- What an unwritten element of `CMAPTAB` holds. -/
opaque drawCmaptab : Nat → Nat → Half

end Sys2Proof.Config
end

