-- ==== Sys2Proof/Machine/State.lean ====
section
/-! DEFINITION. The state of the block as plain data (spec/10_state.md), the host's steps (spec/20_memory.md R40), the
faults the block enters, and the state after reset (R28). -/

namespace Sys2Proof.Machine

/-- One of the six memories: the elements written since reset, as pairs of index and value, indices strictly rising
(`Memory.wf`). An index that is not listed has no value here; the accessors of Machine/Ops.lean then give the free value
(log entries 1 and 2). `Memory Byte` is `List Host.Cell`. -/
abbrev Memory (α : Type) := List (Nat × α)

/-- An element of one of the seven address spaces (spec/20_memory.md R30): a register by its number, or a memory element by
an index of the width R30 gives its space, so that an out-of-range index cannot be written down. -/
inductive Loc where
  | reg (n : Nat)
  | pix (a : BitVec 13)
  | pkd (a : BitVec 10)
  | gbytes (a : BitVec 10)
  | goffs (a : BitVec 10)
  | charset (a : BitVec 8)
  | cmaptab (a : BitVec 8)
deriving DecidableEq, Repr

/-- A step of the one agent: `HostWrite(S, a, v)`, `HostRead(S, a)` (spec/20_memory.md R40) or `Reset()`
(spec/70_reset_and_hazards.md R100). -/
inductive HostStep where
  | write (l : Loc) (v : Nat)
  | read (l : Loc)
  | reset
deriving DecidableEq, Repr

/-- The five faults the block enters (spec/60_exceptions.md R85). Each is a fault ENTRY, a next state (R92). -/
inductive Cause where
  | sizeMismatch
  | dimension
  | glyphHeight
  | capacity
  | illegalCommand
deriving DecidableEq, Repr

/-- The state. The fields to `err` are the registers (spec/10_state.md R11 to R21), the next six the memories (R25); the
last three are the model's own (log entries 3, 4, 5). -/
structure State where
  /-- `CIN` (R11). -/
  cin : Byte
  /-- `PB` (R12). -/
  pb : Byte
  /-- `COUT0`..`COUT7` (R13). -/
  cout : Vector Byte 8
  /-- `RSEL` (R14). -/
  rsel : BitVec 3
  /-- `THRESH` (R16). -/
  thresh : Byte
  /-- `WIDTH` (R17). -/
  width : Half
  /-- `HEIGHT` (R17). -/
  height : Half
  /-- `LEN` (R18). -/
  len : Half
  /-- `CSLEN` (R19). -/
  cslen : Byte
  /-- `GBCNT` (R20). -/
  gbcnt : Half
  /-- `GOCNT` (R20). -/
  gocnt : Half
  /-- `STATUS.HALT` (R21). -/
  halt : Bool
  /-- `STATUS.GWARN` (R21). -/
  gwarn : Bool
  /-- `STATUS.ERR` (R21). -/
  err : BitVec 4
  /-- `PIX`, 8192 grey cells (R25). -/
  pix : Memory Byte
  /-- `PKD`, 1024 packed bytes (R25). -/
  pkd : Memory Byte
  /-- `GBYTES`, 1024 glyph bytes (R25). -/
  gbytes : Memory Byte
  /-- `GOFFS`, 1024 offsets (R25). -/
  goffs : Memory Half
  /-- `CHARSET`, 256 character codes (R25). -/
  charset : Memory Byte
  /-- `CMAPTAB`, 256 charmap entries (R25). -/
  cmaptab : Memory Half
  /-- The model's own: resets taken so far, the counter the free values are applied to (log entry 3). -/
  epoch : Nat
  /-- The model's own: the host's steps still to be taken, next first (log entry 4). -/
  inbox : List HostStep
  /-- The model's own: what the host's reads have returned, oldest first (log entry 5). -/
  replies : List Half
deriving DecidableEq, Repr

/-- Reasons a step stops with a fault. THERE IS NONE: the block's five faults are fault entries (`Cause`), and no behaviour
of it is undefined (spec/60_exceptions.md R85, R92; spec/70_reset_and_hazards.md R111; log entry 12). -/
inductive Fault where
deriving DecidableEq, Repr

/-- Reasons a step is refused. -/
inductive Refusal where
  /-- An instruction without a meaning: an arm of `exec` would answer it. No arm does. Safe: the run stops. -/
  | notModelled (mnemonic : String)
deriving DecidableEq, Repr

/-- Right after reset (spec/10_state.md R28, spec/70_reset_and_hazards.md R101, R102): `THRESH = 128`, every other register
0, no memory element holding a known value. -/
def State.reset : State where
  cin := 0
  pb := 0
  cout := #v[0, 0, 0, 0, 0, 0, 0, 0]
  rsel := 0
  thresh := Config.threshDefault
  width := 0
  height := 0
  len := 0
  cslen := 0
  gbcnt := 0
  gocnt := 0
  halt := false
  gwarn := false
  err := 0
  pix := []
  pkd := []
  gbytes := []
  goffs := []
  charset := []
  cmaptab := []
  epoch := 0
  inbox := []
  replies := []

end Sys2Proof.Machine
end

