-- ==== Sys2Proof/Machine/Ops.lean ====
section
/-! DEFINITION. The named operations over memory and state: reading and writing one element, writing a table from index 0,
entering a fault, and reset, the only way out of one. -/

namespace Sys2Proof.Machine

/-! ## One memory -/

/-- The value written at index `a` since reset, if any. -/
def Memory.read {α : Type} : Memory α → Nat → Option α
  | [], _ => none
  | (b, v) :: m, a => if a = b then some v else Memory.read m a

/-- Replace the element at index `a`, keeping the indices strictly rising. -/
def Memory.write {α : Type} : Memory α → Nat → α → Memory α
  | [], a, v => [(a, v)]
  | (b, w) :: m, a, v =>
    if a < b then (a, v) :: (b, w) :: m
    else if a = b then (a, v) :: m
    else (b, w) :: Memory.write m a v

/-- The cells `(k, v₀), (k+1, v₁), …` of a table laid out from index `k`. -/
def cellsFrom {α : Type} : Nat → List α → Memory α
  | _, [] => []
  | k, v :: vs => (k, v) :: cellsFrom (k + 1) vs

/-- Write a whole table into indices `0 .. vals.length - 1`; the elements at higher indices keep what they held
(spec/42_glyph.md R82). What the bulk commands write with. -/
def Memory.writeTable {α : Type} (m : Memory α) (vals : List α) : Memory α :=
  cellsFrom 0 vals ++ m.filter (fun c => decide (vals.length ≤ c.1))

/-- Indices strictly rising from `lo` and below `hi`. -/
def Memory.risingFrom {α : Type} (hi : Nat) : Nat → Memory α → Bool
  | _, [] => true
  | lo, (a, _) :: m => decide (lo ≤ a) && decide (a < hi) && Memory.risingFrom hi (a + 1) m

/-- The canonical form of a memory of `size` elements. An unlisted index reads as no value, so no entry can equal it. -/
def Memory.wf {α : Type} (size : Nat) (m : Memory α) : Bool := Memory.risingFrom size 0 m

/-! ## The elements of a state: the written value, else the free value of this reset (U1; log entry 1) -/

/-- `PIX[a]`. -/
def State.pixAt (s : State) (a : Nat) : Byte := (s.pix.read a).getD (Config.drawPix s.epoch a)
/-- `PKD[a]`. -/
def State.pkdAt (s : State) (a : Nat) : Byte := (s.pkd.read a).getD (Config.drawPkd s.epoch a)
/-- `GBYTES[a]`. -/
def State.gbytesAt (s : State) (a : Nat) : Byte := (s.gbytes.read a).getD (Config.drawGbytes s.epoch a)
/-- `GOFFS[a]`. -/
def State.goffsAt (s : State) (a : Nat) : Half := (s.goffs.read a).getD (Config.drawGoffs s.epoch a)
/-- `CHARSET[a]`. -/
def State.charsetAt (s : State) (a : Nat) : Byte := (s.charset.read a).getD (Config.drawCharset s.epoch a)
/-- `CMAPTAB[a]`. -/
def State.cmaptabAt (s : State) (a : Nat) : Half := (s.cmaptab.read a).getD (Config.drawCmaptab s.epoch a)

/-- `PIX[a] <- v`. -/
def State.setPix (s : State) (a : Nat) (v : Byte) : State := { s with pix := s.pix.write a v }
/-- `PKD[a] <- v`. -/
def State.setPkd (s : State) (a : Nat) (v : Byte) : State := { s with pkd := s.pkd.write a v }
/-- `GBYTES[a] <- v`. -/
def State.setGbytes (s : State) (a : Nat) (v : Byte) : State := { s with gbytes := s.gbytes.write a v }
/-- `GOFFS[a] <- v`. -/
def State.setGoffs (s : State) (a : Nat) (v : Half) : State := { s with goffs := s.goffs.write a v }
/-- `CHARSET[a] <- v`. -/
def State.setCharset (s : State) (a : Nat) (v : Byte) : State := { s with charset := s.charset.write a v }
/-- `CMAPTAB[a] <- v`. -/
def State.setCmaptab (s : State) (a : Nat) (v : Half) : State := { s with cmaptab := s.cmaptab.write a v }

/-- The pixel at row `r`, column `c` of the bitmap in `PIX`: the pitch is the current `WIDTH` (spec/20_memory.md R31). -/
def State.pixel (s : State) (r c : Nat) : Byte := s.pixAt (r * s.width.toNat + c)

/-! ## Faults and reset -/

/-- The code fault entry stores in `STATUS.ERR` (spec/60_exceptions.md R85). -/
def Cause.code : Cause → BitVec 4
  | .sizeMismatch => 1
  | .dimension => 2
  | .glyphHeight => 3
  | .capacity => 4
  | .illegalCommand => 5

/-- Fault entry, `raise F` (spec/60_exceptions.md R92): the code into `ERR`, `HALT` set, nothing else. -/
def State.raise (s : State) (c : Cause) : State := { s with err := c.code, halt := true }

/-- `Reset()` (spec/70_reset_and_hazards.md R100, R101): registers to their reset values, all six memories unspecified
anew (a new epoch of free values). There is no other way out of a fault (spec/60_exceptions.md R94). The host's own steps
and replies are not the block's and stay. -/
def State.takeReset (s : State) : State :=
  { State.reset with epoch := s.epoch + 1, inbox := s.inbox, replies := s.replies }

end Sys2Proof.Machine
end

