-- ==== Sys2Proof/Machine/Operands.lean ====
section
/-! DEFINITION. The pure functions of the units: pack and unpack, the darkness compare, the frame codec, the glyph front
end and scan, the charmap lookup (spec/40_bitcolumn.md, spec/41_framecodec.md, spec/42_glyph.md). -/

namespace Sys2Proof.Machine

/-! ## Bit-column unit -/

/-- Bit `i` set iff `c`. -/
def bitAt (i : Nat) (c : Bool) : Byte := if c then BitVec.twoPow 8 i else 0

/-- `pack(a)` (R57): for `i` in 0..7, set bit `i` iff `a i`. -/
def pack (a : Nat → Bool) : Byte := (List.range 8).foldl (fun b i => b ||| bitAt i (a i)) 0

/-- `unpack(b)[i]` (R58): a set bit gives a LIGHT cell, a clear bit a dark one. -/
def unpack (b : Byte) (i : Nat) : Byte := if b.getLsbD i then Config.light else Config.dark

/-- The darkness compare (R16, R53 (b)): unsigned, a cell equal to the threshold is light. -/
def isDark (thresh p : Byte) : Bool := p.ult thresh

/-- The 3-bit value SELR's operand puts into `RSEL` (R48, R62). -/
def rowSelect (i : Nat) : BitVec 3 := BitVec.ofNat 3 i

/-! ## Frame unit -/

/-- Byte `k = band*128 + col` of `encodeFrame(P, t)` (R66): bit `i` is `P[8*band + i][col] < t`. -/
def encodeFrame (P : Nat → Nat → Byte) (t : Byte) (k : Nat) : Byte :=
  pack fun i => isDark t (P (Config.bandH * (k / Config.cols) + i) (k % Config.cols))

/-- Cell `(r, c)` of `decodeFrame(K)` (R68): lane `r mod 8` of the byte of row-band `r / 8`, column `c`. -/
def decodeFrame (K : Nat → Byte) (r c : Nat) : Byte :=
  unpack (K (r / Config.bandH * Config.cols + c)) (r % Config.bandH)

/-- The frame in `PIX`, pitch 128 (R65, R67). -/
def State.frame (s : State) (r c : Nat) : Byte := s.pixAt (r * Config.cols + c)

/-! ## Glyph scan unit -/

/-- The conditioned bitmap (R73): thresholded at 128 and rotated by 180 degrees, pitch `W = WIDTH`. -/
def State.conditioned (s : State) (r c : Nat) : Bool :=
  isDark Config.glyphThresh (s.pixAt ((7 - r) * s.width.toNat + (s.width.toNat - 1 - c)))

/-- The packed byte of column `c` of the conditioned bitmap (R74). -/
def State.glyphColumn (s : State) (c : Nat) : Byte := pack fun i => s.conditioned i c

/-- The two lists the scan builds (R75). -/
structure Scan where
  bytes : List Byte
  offsets : List Nat
deriving DecidableEq, Repr

/-- The scan's start (R75): nothing emitted, one offset 0. -/
def Scan.start : Scan := ⟨[], [0]⟩

/-- The most recently recorded offset. -/
def Scan.lastOffset (sc : Scan) : Nat := sc.offsets.getLastD 0

/-- Record a run boundary iff the emitted-byte count differs from the last offset (R75 (2) and (4)). -/
def Scan.close (sc : Scan) : Scan :=
  if sc.bytes.length = sc.lastOffset then sc
  else { sc with offsets := sc.offsets ++ [sc.bytes.length] }

/-- One column (R75 (2), (3)): the zero test is on the unmasked byte, the mask on what is stored. -/
def Scan.column (sc : Scan) (b : Byte) : Scan :=
  if b = 0 then sc.close else { sc with bytes := sc.bytes ++ [b &&& Config.glyphMask] }

/-- `scan(B, W)` on the column bytes `g(0) .. g(W-1)` (R75). -/
def scan (columns : List Byte) : Scan := (columns.foldl Scan.column Scan.start).close

/-- The column bytes of the sheet in `PIX` in scan order (R73, R74). -/
def State.glyphColumns (s : State) : List Byte := (List.range s.width.toNat).map s.glyphColumn

/-! ## Charmap unit -/

/-- The character set, in the order the host gave it (R35). -/
def State.charString (s : State) : List Byte := (List.range s.cslen.toNat).map s.charsetAt

/-- `charmap(s)[c]` (R79): the first index of `c` in the REVERSED string, else -1. -/
def charmapEntry (str : List Byte) (c : Nat) : Half :=
  match str.reverse.findIdx? (fun x => x == BitVec.ofNat 8 c) with
  | some j => BitVec.ofNat 16 j
  | none => Config.absent

end Sys2Proof.Machine
end

