-- ==== Sys2Proof/Machine/Flags.lean ====
section
/-! DEFINITION. The combinational outputs and the status word (spec/10_state.md R15, R21), and the glyph-count warning
(spec/42_glyph.md R77). There are no arithmetic flags (spec/10_state.md R29). -/

namespace Sys2Proof.Machine

/-- `SOUT = PB[RSEL]` (R15). -/
def State.sout (s : State) : Bool := s.pb.getLsbD s.rsel.toNat

/-- `SPIX = 0xFF if SOUT == 1 else 0x00` (R15). -/
def State.spix (s : State) : Byte := if s.sout then Config.light else Config.dark

/-- `STATUS` as the host reads it (R21): `ERR` in 7:4, bit 3 reads 0, `SOUT` in 2, `GWARN` in 1, `HALT` in 0. -/
def State.status (s : State) : Byte :=
  s.err ++ 0#1 ++ BitVec.ofBool s.sout ++ BitVec.ofBool s.gwarn ++ BitVec.ofBool s.halt

/-- The verdict of the glyph-count check (R77; on integers, R53 (g)): `CSLEN != m - 1`, `m` the number of offsets. -/
def glyphWarn (cslen : Byte) (m : Nat) : Bool := decide ((cslen.toNat : Int) ≠ (m : Int) - 1)

end Sys2Proof.Machine
end

