-- ==== Sys2Proof/Machine/BitColumn.lean ====
section
/-! DEFINITION. The commands of the bit-column unit (spec/40_bitcolumn.md). None has a check (spec/60_exceptions.md R91). -/

namespace Sys2Proof.Machine

/-- `NOP` (R59): the same state. -/
def execNop (s : State) : Host.Outcome State Fault Refusal := .next s

/-- `PACKC` (R60): `PB <- pack(a)`, `a[i] <- (CIN[i] == 1)`. -/
def execPackc (s : State) : Host.Outcome State Fault Refusal :=
  .next { s with pb := pack fun i => s.cin.getLsbD i }

/-- `UNPKC` (R61): `COUTi <- unpack(PB)[i]`. -/
def execUnpkc (s : State) : Host.Outcome State Fault Refusal :=
  .next { s with cout := Vector.ofFn fun i => unpack s.pb i.val }

/-- `SELR i` (R62): `RSEL <- i`. -/
def execSelr (i : Nat) (s : State) : Host.Outcome State Fault Refusal :=
  .next { s with rsel := rowSelect i }

/-- `SERN` (R63): `RSEL <- (RSEL + 1) mod 8`. -/
def execSern (s : State) : Host.Outcome State Fault Refusal :=
  .next { s with rsel := s.rsel + 1 }

end Sys2Proof.Machine
end

