-- ==== Sys2Proof/Machine/Frame.lean ====
section
/-! DEFINITION. The commands of the frame unit (spec/41_framecodec.md). Each output element depends on inputs the command
does not write, so the order of evaluation cannot be seen (R66) and a memory is written at once (log entry 11). -/

namespace Sys2Proof.Machine

/-- `FENC` (R67): two dimension checks, then all 1024 bytes of `PKD` and `LEN <- 1024`. -/
def execFenc (s : State) : Host.Outcome State Fault Refusal :=
  if s.width.toNat ≠ Config.cols then .next (s.raise .dimension)
  else if s.height.toNat ≠ Config.rows then .next (s.raise .dimension)
  else .next { s with
    pkd := s.pkd.writeTable ((List.range Config.frameBytes).map (encodeFrame s.frame s.thresh))
    len := BitVec.ofNat 16 Config.frameBytes }

/-- `FDEC` (R69): the length check, then all 8192 cells of `PIX`, `HEIGHT <- 64` and `WIDTH <- 128`. -/
def execFdec (s : State) : Host.Outcome State Fault Refusal :=
  if s.len.toNat ≠ Config.frameBytes then .next (s.raise .sizeMismatch)
  else .next { s with
    pix := s.pix.writeTable ((List.range Config.pixCells).map fun a =>
      decodeFrame s.pkdAt (a / Config.cols) (a % Config.cols))
    height := BitVec.ofNat 16 Config.rows
    width := BitVec.ofNat 16 Config.cols }

end Sys2Proof.Machine
end

