-- ==== Sys2Proof/Machine/Glyph.lean ====
section
/-! DEFINITION. The commands of the glyph scan unit and the charmap unit (spec/42_glyph.md). -/

namespace Sys2Proof.Machine

/-- The scan of the sheet in `PIX` (R73 to R75). -/
def State.sheetScan (s : State) : Scan := scan s.glyphColumns

/-- `GSCAN` (R76): the height check, then the width check, then the two tables up to their counts (R82), the counts and
the warning (R77). -/
def execGscan (s : State) : Host.Outcome State Fault Refusal :=
  if s.height.toNat ≠ Config.glyphH then .next (s.raise .glyphHeight)
  else if Config.gwMax < s.width.toNat then .next (s.raise .capacity)
  else
    let sc := s.sheetScan
    .next { s with
      gbytes := s.gbytes.writeTable sc.bytes
      goffs := s.goffs.writeTable (sc.offsets.map (BitVec.ofNat 16))
      gbcnt := BitVec.ofNat 16 sc.bytes.length
      gocnt := BitVec.ofNat 16 sc.offsets.length
      gwarn := glyphWarn s.cslen sc.offsets.length }

/-- `CMAP` (R80): all 256 entries of `CMAPTAB`. No check. -/
def execCmap (s : State) : Host.Outcome State Fault Refusal :=
  let str := s.charString
  .next { s with cmaptab := s.cmaptab.writeTable ((List.range Config.charmapN).map (charmapEntry str)) }

end Sys2Proof.Machine
end

