-- ==== Sys2Proof/Machine/Dispatch.lean ====
section
/-! DEFINITION. The meaning of a command once it is issued (spec/30_encoding.md R50, steps 3 and 4), one arm per command. -/

namespace Sys2Proof.Machine

def exec (i : Instr) (s : State) : Host.Outcome State Fault Refusal :=
  match i with
  | .nop => Sys2Proof.Machine.execNop s
  | .packc => Sys2Proof.Machine.execPackc s
  | .unpkc => Sys2Proof.Machine.execUnpkc s
  | .selr row => Sys2Proof.Machine.execSelr row s
  | .sern => Sys2Proof.Machine.execSern s
  | .fenc => Sys2Proof.Machine.execFenc s
  | .fdec => Sys2Proof.Machine.execFdec s
  | .gscan => Sys2Proof.Machine.execGscan s
  | .cmap => Sys2Proof.Machine.execCmap s

end Sys2Proof.Machine
end

