-- ==== Sys2Proof/Machine/HostAccess.lean ====
section
/-! DEFINITION. The host's accesses (spec/20_memory.md R40), the register space (spec/10_state.md R23) and the issue of a
command (spec/30_encoding.md R50). -/

namespace Sys2Proof.Machine

/-! ## The register space -/

/-- The implemented registers (R23). -/
inductive Reg where
  | cmd | status | thresh | width | height | len | cslen | cin | pb | rsel | spix | gbcnt | gocnt
  | cout (lane : Fin 8)
deriving DecidableEq, Repr

/-- Register numbers (R23); an unlisted number is unimplemented. -/
def Reg.ofNumber : Nat → Option Reg
  | 0 => some .cmd
  | 1 => some .status
  | 2 => some .thresh
  | 3 => some .width
  | 4 => some .height
  | 5 => some .len
  | 6 => some .cslen
  | 7 => some .cin
  | 8 => some .pb
  | 9 => some .rsel
  | 10 => some .spix
  | 11 => some .gbcnt
  | 12 => some .gocnt
  | 16 => some (.cout 0)
  | 17 => some (.cout 1)
  | 18 => some (.cout 2)
  | 19 => some (.cout 3)
  | 20 => some (.cout 4)
  | 21 => some (.cout 5)
  | 22 => some (.cout 6)
  | 23 => some (.cout 7)
  | _ => none

/-- The number of a register (R23), so that a host program can write it by name (spec/30_encoding.md R51). -/
def Reg.number : Reg → Nat
  | .cmd => 0
  | .status => 1
  | .thresh => 2
  | .width => 3
  | .height => 4
  | .len => 5
  | .cslen => 6
  | .cin => 7
  | .pb => 8
  | .rsel => 9
  | .spix => 10
  | .gbcnt => 11
  | .gocnt => 12
  | .cout lane => 16 + lane.val

/-- What a host read of a register returns (R14, R15, R21, R22, R23), zero-extended to 16 bits (log entry 5). -/
def State.readReg (s : State) : Reg → Half
  | .cmd => 0
  | .status => s.status.setWidth 16
  | .thresh => s.thresh.setWidth 16
  | .width => s.width
  | .height => s.height
  | .len => s.len
  | .cslen => s.cslen.setWidth 16
  | .cin => s.cin.setWidth 16
  | .pb => s.pb.setWidth 16
  | .rsel => s.rsel.setWidth 16
  | .spix => s.spix.setWidth 16
  | .gbcnt => s.gbcnt
  | .gocnt => s.gocnt
  | .cout lane => s.cout[lane].setWidth 16

/-- A host write of `v` to a register other than `CMD`: truncated to the register's width, ignored where the register is
read-only (R23, R40). `CMD` holds no state (R22). -/
def State.writeReg (s : State) (r : Reg) (v : Nat) : State :=
  match r with
  | .thresh => { s with thresh := BitVec.ofNat 8 v }
  | .width => { s with width := BitVec.ofNat 16 v }
  | .height => { s with height := BitVec.ofNat 16 v }
  | .len => { s with len := BitVec.ofNat 16 v }
  | .cslen => { s with cslen := BitVec.ofNat 8 v }
  | .cin => { s with cin := BitVec.ofNat 8 v }
  | .pb => { s with pb := BitVec.ofNat 8 v }
  | .rsel => { s with rsel := BitVec.ofNat 3 v }
  | .cmd | .status | .spix | .gbcnt | .gocnt | .cout _ => s

/-! ## The two primitives -/

/-- `HostRead(S, a)` (R40): the element, zero-extended to 16 bits; permitted halted or not, changes nothing. -/
def hostRead (s : State) : Loc → Half
  | .reg n => match Reg.ofNumber n with
    | some r => s.readReg r
    | none => 0
  | .pix a => (s.pixAt a.toNat).setWidth 16
  | .pkd a => (s.pkdAt a.toNat).setWidth 16
  | .gbytes a => (s.gbytesAt a.toNat).setWidth 16
  | .goffs a => s.goffsAt a.toNat
  | .charset a => (s.charsetAt a.toNat).setWidth 16
  | .cmaptab a => s.cmaptabAt a.toNat

/-- Issue of the command word `w` on a block that is not halted (R50): decode, then the command's meaning; a reserved word
raises `IllegalCommand` (R49, R90). -/
def issue (w : BitVec 8) (s : State) : Host.Outcome State Fault Refusal :=
  match decode w with
  | .ok i => exec i s
  | .error _ => .next (s.raise .illegalCommand)

/-- `HostWrite(S, a, v)` (R40): ignored while halted; `CMD` issues `v[7:0]` (R45); read-only and unimplemented registers
ignore it; else the element becomes `v` truncated to its width. -/
def hostWrite (l : Loc) (v : Nat) (s : State) : Host.Outcome State Fault Refusal :=
  if s.halt then .next s
  else match l with
    | .reg n => match Reg.ofNumber n with
      | some .cmd => issue (BitVec.ofNat 8 v) s
      | some r => .next (s.writeReg r v)
      | none => .next s
    | .pix a => .next (s.setPix a.toNat (BitVec.ofNat 8 v))
    | .pkd a => .next (s.setPkd a.toNat (BitVec.ofNat 8 v))
    | .gbytes a => .next (s.setGbytes a.toNat (BitVec.ofNat 8 v))
    | .goffs a => .next (s.setGoffs a.toNat (BitVec.ofNat 16 v))
    | .charset a => .next (s.setCharset a.toNat (BitVec.ofNat 8 v))
    | .cmaptab a => .next (s.setCmaptab a.toNat (BitVec.ofNat 16 v))

/-- The value `v` goes back to the host (log entry 5). -/
def State.reply (s : State) (v : Half) : State := { s with replies := s.replies ++ [v] }

/-- The host's steps still to be taken are `rest` (log entry 4). -/
def State.setInbox (s : State) (rest : List HostStep) : State := { s with inbox := rest }

/-- One step of the host (R40, R100). -/
def hostStep (h : HostStep) (s : State) : Host.Outcome State Fault Refusal :=
  match h with
  | .write l v => hostWrite l v s
  | .read l => .next (s.reply (hostRead s l))
  | .reset => .next s.takeReset

/-- The host's next step is taken from the inbox; with none there, nothing changes (R40, R102; log entry 4). -/
def serveHost (s : State) : Host.Outcome State Fault Refusal :=
  match s.inbox with
  | [] => .next s
  | h :: rest => hostStep h (s.setInbox rest)

/-- The command word `w` as the host's next step: a write to `CMD` (R43, R50; log entry 4). -/
def State.withCommand (s : State) (w : Nat) : State := s.setInbox (.write (.reg Reg.cmd.number) w :: s.inbox)

end Sys2Proof.Machine
end

