-- ==== Sys2Proof/Machine/Step.lean ====
section
/-! DEFINITION. One step of the machine: the host's next access, with all its effect (spec/20_memory.md R40, R41). -/

namespace Sys2Proof.Machine

/-- One host step. -/
def step (s : State) : Host.Outcome State Fault Refusal := serveHost s

/-- The command word `w` placed where the block takes its next command from: the head of the host's steps, as a write to
`CMD` (spec/30_encoding.md R50; the block fetches nothing, spec/10_state.md R24; log entry 4). -/
def State.withFetchWord (s : State) (nbits w : Nat) : State := s.withCommand (w % 2 ^ nbits)

end Sys2Proof.Machine
end

