-- ==== Sys2Proof/Machine/HostPrograms.lean ====
section
/-! DEFINITION. The pseudo-instructions as sequences of host steps (spec/30_encoding.md R51, R52). -/

namespace Sys2Proof.Machine

/-- `WR <register>, v` (R51). -/
def wrReg (r : Reg) (v : Nat) : HostStep := .write (.reg r.number) v

/-- `RD <register>` (R51). -/
def rdReg (r : Reg) : HostStep := .read (.reg r.number)

/-- A bare mnemonic: `HostWrite(REG, 0, word)` (R51). -/
def command (i : Instr) : HostStep := wrReg .cmd (encode i).toNat

/-- `SERBYTE` (R52): `SELR 0`, then eight reads of `port` (`SPIX`, or `STATUS` for its bit 2), `SERN` between them. -/
def serByte (port : Reg) : List HostStep :=
  command (.selr 0) :: rdReg port :: (List.replicate 7 [command .sern, rdReg port]).flatten

/-- `GENCODE` (R52). -/
def genCode : List HostStep := [command .gscan, command .cmap]

/-- `LOADPIX h, w, data` (R52). -/
def loadPix (h w : Nat) (data : List Byte) : List HostStep :=
  wrReg .width w :: wrReg .height h ::
    ((data.take (h * w)).zipIdx.map fun x => .write (.pix (BitVec.ofNat 13 x.2)) x.1.toNat)

/-- `LOADPKD n, data` (R52). -/
def loadPkd (n : Nat) (data : List Byte) : List HostStep :=
  wrReg .len n ::
    ((data.take (min n 1024)).zipIdx.map fun x => .write (.pkd (BitVec.ofNat 10 x.2)) x.1.toNat)

/-- `LOADCS s` (R52). -/
def loadCs (str : List Byte) : List HostStep :=
  wrReg .cslen str.length ::
    (str.zipIdx.map fun x => .write (.charset (BitVec.ofNat 8 x.2)) x.1.toNat)

end Sys2Proof.Machine
end

