-- ==== Sys2Proof/Machine/Pseudocode.lean ====
section
/-! DEFINITION. The pseudocode of the four bulk commands, element by element as the rules write it (spec/41_framecodec.md
R67, R69; spec/42_glyph.md R76, R80). The machine does not run these: claims say that `exec` gives the same state. -/

namespace Sys2Proof.Machine

/-- `FENC`'s inner loop: `b[i] <- 1` for each dark cell of the strip (R67). -/
def fencStripLoop (s : State) (band col : Nat) : Byte :=
  (List.range 8).foldl
    (fun b i => if (s.pixAt ((8 * band + i) * 128 + col)).toNat < s.thresh.toNat then b ||| BitVec.twoPow 8 i else b) 0

/-- `FENC` (R67). -/
def fencLoop (s : State) : State :=
  if s.width.toNat ≠ 128 then s.raise .dimension
  else if s.height.toNat ≠ 64 then s.raise .dimension
  else
    let t := (List.range 8).foldl (fun t band =>
      (List.range 128).foldl (fun t col => t.setPkd (band * 128 + col) (fencStripLoop t band col)) t) s
    { t with len := 1024 }

/-- `FDEC` (R69). -/
def fdecLoop (s : State) : State :=
  if s.len.toNat ≠ 1024 then s.raise .sizeMismatch
  else
    let t := (List.range 8).foldl (fun t band =>
      (List.range 128).foldl (fun t col =>
        let b := t.pkdAt (band * 128 + col)
        (List.range 8).foldl (fun t i =>
          t.setPix ((8 * band + i) * 128 + col) (if b.getLsbD i then 0xFF else 0x00)) t) t) s
    { t with height := 64, width := 128 }

/-- `GSCAN`'s local counts beside the state (R76; local to the command, spec/10_state.md R26). -/
structure ScanLocals where
  s : State
  n : Nat
  m : Nat

/-- `if n != GOFFS[m-1]: GOFFS[m] <- n ; m <- m + 1` (R76). -/
def gscanCloseLoop (x : ScanLocals) : ScanLocals :=
  if x.n ≠ (x.s.goffsAt (x.m - 1)).toNat then ⟨x.s.setGoffs x.m (BitVec.ofNat 16 x.n), x.n, x.m + 1⟩ else x

/-- The byte of column `c` (R76). -/
def gscanColumnLoop (s : State) (w c : Nat) : Byte :=
  (List.range 8).foldl
    (fun b i => if (s.pixAt ((7 - i) * w + (w - 1 - c))).toNat < 128 then b ||| BitVec.twoPow 8 i else b) 0

/-- `GSCAN` (R76). -/
def gscanLoop (s : State) : State :=
  if s.height.toNat ≠ 8 then s.raise .glyphHeight
  else if s.width.toNat > 1024 then s.raise .capacity
  else
    let w := s.width.toNat
    let x := (List.range w).foldl (fun x c =>
      let b := gscanColumnLoop x.s w c
      if b = 0 then gscanCloseLoop x
      else ⟨x.s.setGbytes x.n (b &&& 0xFE), x.n + 1, x.m⟩) (⟨s.setGoffs 0 0, 0, 1⟩ : ScanLocals)
    let x := gscanCloseLoop x
    { x.s with
      gbcnt := BitVec.ofNat 16 x.n
      gocnt := BitVec.ofNat 16 x.m
      gwarn := decide (x.s.cslen.toNat + 1 ≠ x.m) }

/-- `CMAP`'s inner loop over `j`, left by `break` (R80). -/
def cmapSearchLoop (s : State) (l c : Nat) : List Nat → Half
  | [] => 0xFFFF
  | j :: js => if (s.charsetAt (l - 1 - j)).toNat = c then BitVec.ofNat 16 j else cmapSearchLoop s l c js

/-- `CMAP` (R80). -/
def cmapLoop (s : State) : State :=
  let l := s.cslen.toNat
  (List.range 256).foldl (fun t c => t.setCmaptab c (cmapSearchLoop t l c (List.range l))) s

/-- The scan by a one-bit zero-run detector `F` (R78 (b)): set on every non-zero column, cleared on every append. -/
structure Detector where
  bytes : List Byte
  offsets : List Nat
  flag : Bool

/-- Append iff `F` (R78 (b)). -/
def Detector.close (d : Detector) : Detector :=
  if d.flag then ⟨d.bytes, d.offsets ++ [d.bytes.length], false⟩ else d

/-- One column of the detector's scan (R78 (b)). -/
def Detector.column (d : Detector) (b : Byte) : Detector :=
  if b = 0 then d.close else ⟨d.bytes ++ [b &&& 0xFE], d.offsets, true⟩

/-- The detector's scan (R78 (b)). -/
def detectorScan (columns : List Byte) : Detector := (columns.foldl Detector.column ⟨[], [0], false⟩).close

end Sys2Proof.Machine
end

