-- ==== Sys2Proof/Safety.lean ====
section
/-! DEFINITION. The terms claims use: the block without its host, the invariant, how a run ends, a sequence of commands,
the spans of non-zero columns. -/

namespace Sys2Proof.Machine

/-- The block itself: the state less what is the host's (log entries 4 and 5). -/
def State.block (s : State) : State := { s with inbox := [], replies := [] }

/-- What every step keeps: canonical memories inside their spaces (spec/20_memory.md R30), `HALT` iff `ERR` (spec/10_state.md
R21) with a code the block can store (spec/60_exceptions.md R85), the `COUT` lanes (R13), the ranges of the counts (R20). -/
structure BlockInv (s : State) : Prop where
  pix : Memory.wf 8192 s.pix = true
  pkd : Memory.wf 1024 s.pkd = true
  gbytes : Memory.wf 1024 s.gbytes = true
  goffs : Memory.wf 1024 s.goffs = true
  charset : Memory.wf 256 s.charset = true
  cmaptab : Memory.wf 256 s.cmaptab = true
  halt_iff : s.halt = true ↔ s.err ≠ 0
  err_le : s.err.toNat ≤ 5
  cout : ∀ i : Fin 8, s.cout[i] = 0xFF ∨ s.cout[i] = 0x00
  gbcnt_le : s.gbcnt.toNat ≤ 1024
  gocnt_le : s.gocnt.toNat ≤ 513
  runs_le : s.gocnt.toNat ≤ s.gbcnt.toNat + 1

/-- A run ended well (spec/70_reset_and_hazards.md R112): no host step is left and the block is not halted. -/
def EndedWell (s : State) : Prop := s.inbox = [] ∧ s.halt = false

/-- A run ended in a fault (R112). -/
def EndedInFault (s : State) : Prop := s.halt = true

/-- Commands one after another, each once issued. -/
def execAll : List Instr → State → Host.Outcome State Fault Refusal
  | [], s => .next s
  | i :: is, s => match exec i s with
    | .next t => execAll is t
    | .fault r => .fault r
    | .refused r => .refused r

/-- `n` steps of the machine. -/
def runSteps (n : Nat) (s : State) : Host.Outcome State Fault Refusal := Sys2Proof.core.run n s

/-- What a host step gets back from the block `s`, if it is a read (spec/20_memory.md R40). -/
def replyOf (s : State) : HostStep → Option Half
  | .read l => some (hostRead s l)
  | .write _ _ => none
  | .reset => none

/-- The command the next step runs, if it runs one (spec/30_encoding.md R50, spec/60_exceptions.md R91). -/
def State.issued (s : State) : Option Instr :=
  if s.halt then none
  else match s.inbox with
    | .write (.reg 0) v :: _ => match decode (BitVec.ofNat 8 v) with
      | .ok i => some i
      | .error _ => none
    | _ => none

/-- The next step is a host write of `l`. -/
def State.writesNext (s : State) (l : Loc) : Prop := ∃ v, s.inbox.head? = some (.write l v)

/-- The next step is `Reset()`. -/
def State.resetsNext (s : State) : Prop := s.inbox.head? = some .reset

/-- The maximal spans of consecutive non-zero columns, in order (spec/42_glyph.md R78 (d)). -/
def spans (columns : List Byte) : List (List Byte) :=
  (columns.splitOnP (fun b => b == 0)).filter (fun r => !r.isEmpty)

/-- An element of a memory, not a register. -/
def Loc.isMemory : Loc → Bool
  | .reg _ => false
  | .pix _ => true
  | .pkd _ => true
  | .gbytes _ => true
  | .goffs _ => true
  | .charset _ => true
  | .cmaptab _ => true

end Sys2Proof.Machine
end

