-- ==== Sys2Proof/Certificates/Slice0/Obligations.lean ====
section
/-! DEFINITION. The statements for the provers, in the order of the spec's files. A docstring names the rules a statement
formalises; what a statement takes from the model rather than from the spec is said there with its log entry. -/

open Sys2Proof Sys2Proof.Machine

/-! ## The bit-column unit (spec/40_bitcolumn.md) -/

/-- R57: bit `i` of `pack(a)` is `a[i]`; as a sum; a bijection between 8-boolean vectors and bytes. -/
def Obligations.PackSetsBitPerActiveRow : Prop :=
  (∀ (a : Nat → Bool) (i : Nat), i < 8 → (pack a).getLsbD i = a i) ∧
  (∀ a : Nat → Bool, (pack a).toNat = ((List.range 8).map fun i => if a i then 2 ^ i else 0).sum) ∧
  (∀ b : Byte, pack (fun i => b.getLsbD i) = b) ∧
  (∀ a a' : Nat → Bool, pack a = pack a' → ∀ i, i < 8 → a i = a' i)

/-- R58: a set bit unpacks to a light cell; repacking by `== 0xFF` gives the byte, repacking by darkness its complement. -/
def Obligations.UnpackIsLightForSetBits : Prop :=
  ∀ b : Byte,
    (∀ i, i < 8 → unpack b i = if b.getLsbD i then 0xFF else 0x00) ∧
    (∀ i, i < 8 → unpack b i = 0x00 ∨ unpack b i = 0xFF) ∧
    pack (fun i => unpack b i == 0xFF) = b ∧
    pack (fun i => decide ((unpack b i).toNat < 128)) = b ^^^ 0xFF

/-- R59: word 0x00 is `NOP`, which leaves any state as it is; halted, its ignored write is indistinguishable. -/
def Obligations.NopLeavesTheState : Prop :=
  decode 0x00 = .ok .nop ∧
  (∀ s : State, exec .nop s = .next s) ∧
  (∀ (s : State) (v : Nat), v % 256 = 0 → hostWrite (.reg 0) v s = .next s)

/-- R60: `PB <- pack(a)` with `a[i] = CIN[i]`, that is `PB <- CIN`; the mux outputs follow; nothing else changes. -/
def Obligations.PackcCopiesCinIntoPb : Prop :=
  decode 0x10 = .ok .packc ∧
  ∀ s : State, ∃ t, exec .packc s = .next t ∧ t = { s with pb := s.cin } ∧
    (∀ i, i < 8 → t.pb.getLsbD i = s.cin.getLsbD i) ∧
    t.sout = s.cin.getLsbD s.rsel.toNat ∧ t.spix = if t.sout then 0xFF else 0x00

/-- R61: `COUTi <- unpack(PB)[i]` on all eight lanes; nothing else changes. -/
def Obligations.UnpkcSpreadsPbOverCout : Prop :=
  decode 0x20 = .ok .unpkc ∧
  ∀ s : State, ∃ t, exec .unpkc s = .next t ∧ t = { s with cout := t.cout } ∧
    ∀ i : Fin 8, t.cout[i] = if s.pb.getLsbD i.val then 0xFF else 0x00

/-- R62: `SELR i` for `i` in 0..7; the mux then presents row `i`; selecting the current row changes nothing; the words
0x38..0x3F raise `IllegalCommand`. -/
def Obligations.SelrSelectsTheRow : Prop :=
  (∀ i, i < 8 → decode (0x30 ||| BitVec.ofNat 8 i) = .ok (.selr i)) ∧
  (∀ (i : Nat) (s : State), i < 8 → ∃ t, exec (.selr i) s = .next t ∧ t = { s with rsel := t.rsel } ∧
    t.rsel.toNat = i ∧ t.sout = s.pb.getLsbD i ∧ t.spix = unpack s.pb i ∧ t.status.getLsbD 2 = t.sout) ∧
  (∀ s : State, exec (.selr s.rsel.toNat) s = .next s) ∧
  (∀ (j : Nat) (s : State), j < 8 →
    issue (0x38 ||| BitVec.ofNat 8 j) s = .next { s with err := 5, halt := true })

/-- R63: `RSEL <- (RSEL + 1) mod 8`; the mux presents that row; eight `SERN` restore `RSEL`. -/
def Obligations.SernAdvancesModuloEight : Prop :=
  decode 0x40 = .ok .sern ∧
  (∀ s : State, ∃ t, exec .sern s = .next t ∧ t = { s with rsel := t.rsel } ∧
    t.rsel.toNat = (s.rsel.toNat + 1) % 8 ∧ t.sout = s.pb.getLsbD ((s.rsel.toNat + 1) % 8) ∧
    t.spix = (if t.sout then 0xFF else 0x00) ∧ t.status.getLsbD 2 = t.sout) ∧
  (∀ s : State, execAll (List.replicate 8 .sern) s = .next s)

/-- The serial order: `SERBYTE` (R52), run as host steps on a block that is not halted, reads `unpack(PB)[0..7]` from
`SPIX`, and `PB[0..7]` from bit 2 of `STATUS`, least significant bit first; `UNPKC` delivers the same values at once. -/
def Obligations.SerialReadsTopRowFirst : Prop :=
  ∀ s : State, s.halt = false →
    runSteps 16 { s with inbox := serByte .spix } = .next { s with
      rsel := 7, inbox := [],
      replies := s.replies ++ (List.range 8).map fun i => (unpack s.pb i).setWidth 16 } ∧
    (∃ t, runSteps 16 { s with inbox := serByte .status } = .next t ∧
      ∀ i, i < 8 → ∃ v, t.replies[s.replies.length + i]? = some v ∧ v.getLsbD 2 = s.pb.getLsbD i) ∧
    (∃ u, exec .unpkc s = .next u ∧ ∀ i : Fin 8, u.cout[i] = unpack s.pb i.val)

/-- Frame of the bit-column commands: no memory element, no parameter, result or flag; of the bit-column registers only
PACKC's `PB`, UNPKC's `COUT`, and `RSEL` of SELR and SERN. -/
def Obligations.BitColumnCommandsKeepTheRest : Prop :=
  ∀ (i : Instr) (s t : State), (i = .nop ∨ i = .packc ∨ i = .unpkc ∨ (∃ r, i = .selr r) ∨ i = .sern) →
    exec i s = .next t →
    (∀ l : Loc, l.isMemory = true → hostRead t l = hostRead s l) ∧
    (t.cin = s.cin ∧ t.thresh = s.thresh ∧ t.width = s.width ∧ t.height = s.height ∧ t.len = s.len ∧
      t.cslen = s.cslen ∧ t.gbcnt = s.gbcnt ∧ t.gocnt = s.gocnt ∧ t.halt = s.halt ∧ t.gwarn = s.gwarn ∧
      t.err = s.err) ∧
    (i ≠ .packc → t.pb = s.pb) ∧ (i ≠ .unpkc → t.cout = s.cout) ∧
    (i = .nop ∨ i = .packc ∨ i = .unpkc → t.rsel = s.rsel)

/-! ## The frame unit (spec/41_framecodec.md) -/

/-- R66 and the effect of `FENC` on a frame of 128 by 64: bit `i` of the byte of band `band`, column `col` is set iff the
cell of row `8*band + i` is below `THRESH`; `LEN <- 1024`; nothing else changes. -/
def Obligations.FencPacksDarkCells : Prop :=
  ∀ s : State, s.width = 128 → s.height = 64 → ∃ t, exec .fenc s = .next t ∧
    t = { s with pkd := t.pkd, len := 1024 } ∧
    ∀ band col i, band < 8 → col < 128 → i < 8 →
      (t.pkdAt (band * 128 + col)).getLsbD i
        = decide ((s.pixAt ((8 * band + i) * 128 + col)).toNat < s.thresh.toNat)

/-- R68 and the effect of `FDEC` with `LEN = 1024`: each cell is `0xFF` or `0x00` as its bit is set or clear; `HEIGHT <- 64`,
`WIDTH <- 128`; nothing else changes. -/
def Obligations.FdecUnpacksBytesIntoCells : Prop :=
  ∀ s : State, s.len = 1024 → ∃ t, exec .fdec s = .next t ∧
    t = { s with pix := t.pix, height := 64, width := 128 } ∧
    ∀ band col i, band < 8 → col < 128 → i < 8 →
      t.pixAt ((8 * band + i) * 128 + col)
        = if (s.pkdAt (band * 128 + col)).getLsbD i then 0xFF else 0x00

/-- R67: word 0x50; `FENC` gives the very state its pseudocode gives, faults included. -/
def Obligations.FencRefinesItsPseudocode : Prop :=
  decode 0x50 = .ok .fenc ∧ ∀ s : State, BlockInv s → exec .fenc s = .next (fencLoop s)

/-- R69: word 0x60; `FDEC` gives the very state its pseudocode gives, faults included. -/
def Obligations.FdecRefinesItsPseudocode : Prop :=
  decode 0x60 = .ok .fdec ∧ ∀ s : State, BlockInv s → exec .fdec s = .next (fdecLoop s)

/-- R70: `FENC; FDEC` keeps every pixel's place and complements its classification; `FDEC; FENC` complements every byte for
`THRESH` in 1..255 and clears it for 0. -/
def Obligations.FrameRoundTripComplements : Prop :=
  (∀ s : State, s.width = 128 → s.height = 64 → ∃ t, execAll [.fenc, .fdec] s = .next t ∧
    ∀ r c, r < 64 → c < 128 →
      t.pixAt (r * 128 + c) = (if (s.pixAt (r * 128 + c)).toNat < s.thresh.toNat then 0xFF else 0x00) ∧
      (s.thresh = 128 → ((t.pixAt (r * 128 + c)).toNat < 128 ↔ ¬ (s.pixAt (r * 128 + c)).toNat < 128))) ∧
  (∀ s : State, s.len = 1024 → ∃ t, execAll [.fdec, .fenc] s = .next t ∧
    ∀ k, k < 1024 → t.pkdAt k = if s.thresh = 0 then 0x00 else s.pkdAt k ^^^ 0xFF)

/-- R72: a bulk command neither writes nor reads the bit-column registers: whatever they hold, they stay, and the rest of
the result is the same. -/
def Obligations.BulkCommandsIgnoreBitColumnRegisters : Prop :=
  ∀ (i : Instr) (s : State), (i = .fenc ∨ i = .fdec ∨ i = .gscan ∨ i = .cmap) → ∃ t, exec i s = .next t ∧
    t.cin = s.cin ∧ t.pb = s.pb ∧ t.cout = s.cout ∧ t.rsel = s.rsel ∧ t.sout = s.sout ∧ t.spix = s.spix ∧
    ∀ (cin pb : Byte) (cout : Vector Byte 8) (rsel : BitVec 3),
      exec i { s with cin := cin, pb := pb, cout := cout, rsel := rsel }
        = .next { t with cin := cin, pb := pb, cout := cout, rsel := rsel }

/-! ## The glyph scan unit and the charmap unit (spec/42_glyph.md) -/

/-- R73, R74, R82 and the effect of `GSCAN` on a sheet of height 8 and width at most 1024, for the column bytes of the
conditioned bitmap: `scan`'s lists go to `GBYTES` and `GOFFS` from index 0, the elements above keep what they held, the counts
are the lists' lengths; nothing else changes but `GWARN`. -/
def Obligations.GscanStoresTheScanOfTheRotatedSheet : Prop :=
  ∀ (s : State) (columns : List Byte), s.height = 8 → s.width.toNat ≤ 1024 →
    columns.length = s.width.toNat →
    (∀ c i, (h : c < columns.length) → i < 8 → columns[c].getLsbD i
      = decide ((s.pixAt ((7 - i) * s.width.toNat + (s.width.toNat - 1 - c))).toNat < 128)) →
    ∃ t, exec .gscan s = .next t ∧
      t = { s with gbytes := t.gbytes, goffs := t.goffs, gbcnt := t.gbcnt, gocnt := t.gocnt, gwarn := t.gwarn } ∧
      t.gbcnt.toNat = (scan columns).bytes.length ∧ t.gocnt.toNat = (scan columns).offsets.length ∧
      (∀ k, (h : k < (scan columns).bytes.length) → t.gbytesAt k = (scan columns).bytes[k]) ∧
      (∀ k, (h : k < (scan columns).offsets.length) → (t.goffsAt k).toNat = (scan columns).offsets[k]) ∧
      (∀ k, t.gbcnt.toNat ≤ k → t.gbytesAt k = s.gbytesAt k) ∧
      (∀ k, t.gocnt.toNat ≤ k → t.goffsAt k = s.goffsAt k)

/-- R76: word 0x70; `GSCAN` gives the very state its pseudocode gives, faults included. -/
def Obligations.GscanRefinesItsPseudocode : Prop :=
  decode 0x70 = .ok .gscan ∧ ∀ s : State, BlockInv s → exec .gscan s = .next (gscanLoop s)

/-- R77: `GWARN` is the verdict `CSLEN != GOCNT - 1` on integers of the last successful scan; nothing halts; no other command,
no fault and no later write of `CSLEN` touches it. -/
def Obligations.GwarnIsTheGlyphCountVerdict : Prop :=
  (∀ s : State, s.height = 8 → s.width.toNat ≤ 1024 → ∃ t, exec .gscan s = .next t ∧
    (t.gwarn = true ↔ (s.cslen.toNat : Int) ≠ (t.gocnt.toNat : Int) - 1) ∧ t.halt = s.halt ∧ t.err = s.err) ∧
  (∀ (i : Instr) (s t : State), i ≠ .gscan → exec i s = .next t → t.gwarn = s.gwarn) ∧
  (∀ (s : State) (c : Cause), (s.raise c).gwarn = s.gwarn) ∧
  (∀ (s : State) (v : Nat), s.halt = false →
    hostWrite (.reg 6) v s = .next { s with cslen := BitVec.ofNat 8 v })

/-- R78 (d), (e): the bytes are the masked spans of non-zero columns one after another, the offsets the running sums of
their lengths; there are as many bytes as non-zero columns and one offset more than spans. -/
def Obligations.ScanIsTheSpansOfNonzeroColumns : Prop :=
  ∀ columns : List Byte,
    (scan columns).bytes = (spans columns).flatten.map (· &&& 0xFE) ∧
    (scan columns).offsets = ((spans columns).map List.length).scanl (· + ·) 0 ∧
    (scan columns).bytes.length = columns.countP (fun b => b != 0) ∧
    (scan columns).offsets.length = (spans columns).length + 1 ∧
    ∀ r ∈ spans columns, r ≠ [] ∧ ∀ b ∈ r, b ≠ 0

/-- R78 (a), (f): the offsets rise strictly from 0 to the number of bytes, and every emitted byte has bit 0 clear. -/
def Obligations.OffsetsRiseStrictlyFromZero : Prop :=
  ∀ columns : List Byte,
    (scan columns).offsets.Pairwise (· < ·) ∧ (scan columns).offsets.head? = some 0 ∧
    ((scan columns).bytes ≠ [] → (scan columns).offsets.getLast? = some (scan columns).bytes.length) ∧
    ∀ b ∈ (scan columns).bytes, b.getLsbD 0 = false

/-- R78 (b): the compare with the last offset is a one-bit zero-run detector, at every column and in the result. -/
def Obligations.ZeroRunDetectorScansTheSame : Prop :=
  ∀ columns : List Byte,
    (detectorScan columns).bytes = (scan columns).bytes ∧ (detectorScan columns).offsets = (scan columns).offsets ∧
    ((columns.foldl Detector.column ⟨[], [0], false⟩).flag = true
      ↔ (columns.foldl Scan.column Scan.start).bytes.length ≠ (columns.foldl Scan.column Scan.start).lastOffset)

/-- R53 (e), (g): a scan of at most 1024 columns emits at most one byte a column and records 1 to 513 offsets. -/
def Obligations.ScanCountsFitTheirRegisters : Prop :=
  ∀ columns : List Byte, columns.length ≤ 1024 →
    (scan columns).bytes.length ≤ columns.length ∧ 1 ≤ (scan columns).offsets.length ∧
    (scan columns).offsets.length ≤ 513 ∧ (scan columns).offsets.length ≤ (scan columns).bytes.length + 1

/-- R79: `CMAPTAB[c]` is the first index of `c` in the reversed character set (so it comes from its last occurrence), and
`0xFFFF` where `c` is absent; nothing else changes. -/
def Obligations.CmapIndexesTheReversedCharset : Prop :=
  ∀ s : State, ∃ t, exec .cmap s = .next t ∧ t = { s with cmaptab := t.cmaptab } ∧ ∀ c, c < 256 →
    (∀ j, j < s.cslen.toNat → (s.charsetAt (s.cslen.toNat - 1 - j)).toNat = c →
      (∀ k, k < j → (s.charsetAt (s.cslen.toNat - 1 - k)).toNat ≠ c) → t.cmaptabAt c = BitVec.ofNat 16 j) ∧
    (∀ p, p < s.cslen.toNat → (s.charsetAt p).toNat = c →
      (∀ q, p < q → q < s.cslen.toNat → (s.charsetAt q).toNat ≠ c) →
      t.cmaptabAt c = BitVec.ofNat 16 (s.cslen.toNat - 1 - p)) ∧
    ((∀ p, p < s.cslen.toNat → (s.charsetAt p).toNat ≠ c) → t.cmaptabAt c = 0xFFFF)

/-- R80: word 0x80; `CMAP` gives the very state its pseudocode gives. -/
def Obligations.CmapRefinesItsPseudocode : Prop :=
  decode 0x80 = .ok .cmap ∧ ∀ s : State, BlockInv s → exec .cmap s = .next (cmapLoop s)

/-- R81: on a sheet that scans, `GSCAN` and `CMAP` in either order give the same final state. -/
def Obligations.GscanAndCmapCommute : Prop :=
  ∀ s : State, s.height = 8 → s.width.toNat ≤ 1024 →
    ∃ t, execAll [.gscan, .cmap] s = .next t ∧ execAll [.cmap, .gscan] s = .next t

/-- Frame of the bulk commands where they do not fault, element by element: every element of every space but those stored
to reads as before (of `STATUS`, GSCAN changes `GWARN` alone). -/
def Obligations.BulkCommandsStoreOnlyTheirOutputs : Prop :=
  (∀ s : State, s.width = 128 → s.height = 64 → ∃ t, exec .fenc s = .next t ∧
    ∀ l, l ≠ .reg 5 → (∀ a, l ≠ .pkd a) → hostRead t l = hostRead s l) ∧
  (∀ s : State, s.len = 1024 → ∃ t, exec .fdec s = .next t ∧
    ∀ l, l ≠ .reg 3 → l ≠ .reg 4 → (∀ a, l ≠ .pix a) → hostRead t l = hostRead s l) ∧
  (∀ s : State, s.height = 8 → s.width.toNat ≤ 1024 → ∃ t, exec .gscan s = .next t ∧
    (∀ l, l ≠ .reg 1 → l ≠ .reg 11 → l ≠ .reg 12 →
      (∀ a, l = .gbytes a → t.gbcnt.toNat ≤ a.toNat) → (∀ a, l = .goffs a → t.gocnt.toNat ≤ a.toNat) →
      hostRead t l = hostRead s l) ∧
    t.halt = s.halt ∧ t.err = s.err ∧ t.sout = s.sout) ∧
  (∀ s : State, ∃ t, exec .cmap s = .next t ∧ ∀ l, (∀ a, l ≠ .cmaptab a) → hostRead t l = hostRead s l)

/-- What each bulk command's results depend on: two states that agree on its inputs give the same outputs. `GSCAN` reads the
cells `0 .. 8*WIDTH-1` alone, `CMAP` the characters below `CSLEN` alone. -/
def Obligations.BulkResultsDependOnlyOnInputs : Prop :=
  (∀ s s' : State, s.width = 128 → s.height = 64 → s'.width = 128 → s'.height = 64 → s'.thresh = s.thresh →
    (∀ a, a < 8192 → s'.pixAt a = s.pixAt a) →
    ∃ t t', exec .fenc s = .next t ∧ exec .fenc s' = .next t' ∧ ∀ k, k < 1024 → t'.pkdAt k = t.pkdAt k) ∧
  (∀ s s' : State, s.len = 1024 → s'.len = 1024 → (∀ k, k < 1024 → s'.pkdAt k = s.pkdAt k) →
    ∃ t t', exec .fdec s = .next t ∧ exec .fdec s' = .next t' ∧ ∀ a, a < 8192 → t'.pixAt a = t.pixAt a) ∧
  (∀ s s' : State, s.height = 8 → s'.height = 8 → s.width.toNat ≤ 1024 → s'.width = s.width →
    s'.cslen = s.cslen → (∀ a, a < 8 * s.width.toNat → s'.pixAt a = s.pixAt a) →
    ∃ t t', exec .gscan s = .next t ∧ exec .gscan s' = .next t' ∧ t'.gbcnt = t.gbcnt ∧ t'.gocnt = t.gocnt ∧
      t'.gwarn = t.gwarn ∧ (∀ k, k < t.gbcnt.toNat → t'.gbytesAt k = t.gbytesAt k) ∧
      ∀ k, k < t.gocnt.toNat → t'.goffsAt k = t.goffsAt k) ∧
  (∀ s s' : State, s'.cslen = s.cslen → (∀ k, k < s.cslen.toNat → s'.charsetAt k = s.charsetAt k) →
    ∃ t t', exec .cmap s = .next t ∧ exec .cmap s' = .next t' ∧ ∀ c, c < 256 → t'.cmaptabAt c = t.cmaptabAt c)

/-! ## Encoding and issue (spec/30_encoding.md) -/

/-- Words written out from the table of R47 decode to their commands; two reserved words decode to none. -/
def Obligations.TableWordsDecode : Prop :=
  decode 0b00000000 = .ok .nop ∧ decode 0b00010000 = .ok .packc ∧ decode 0b00100000 = .ok .unpkc ∧
  decode 0b00110101 = .ok (.selr 5) ∧ decode 0b01000000 = .ok .sern ∧ decode 0b01010000 = .ok .fenc ∧
  decode 0b01100000 = .ok .fdec ∧ decode 0b01110000 = .ok .gscan ∧ decode 0b10000000 = .ok .cmap ∧
  decodeTableWord 8 0b00111000 = none ∧ decodeTableWord 8 0b10010000 = none

/-- Decoding an encoded well-formed command gives it back, and every word with a meaning is the encoding of it. -/
def Obligations.DecodeAndEncodeAgree : Prop :=
  (∀ i : Instr, WellFormed i → decode (encode i) = .ok i) ∧
  (∀ (w : BitVec 8) (i : Instr), decode w = .ok i → WellFormed i ∧ encode i = w)

/-- R49, R90: exactly the words outside the map are reserved, 240 of them; issuing one raises `IllegalCommand`, code 5, and
issuing any other word does not. -/
def Obligations.ReservedWordsRaiseIllegalCommand : Prop :=
  (∀ w : BitVec 8, (∃ e, decode w = .error e) ↔
    (9 ≤ w.toNat / 16 ∨ (w.toNat / 16 ≤ 8 ∧ w.toNat / 16 ≠ 3 ∧ w.toNat % 16 ≠ 0) ∨
      (w.toNat / 16 = 3 ∧ 8 ≤ w.toNat % 16))) ∧
  ((List.range 256).filter (fun n => (decodeTableWord 8 n).isNone)).length = 240 ∧
  (∀ (w : BitVec 8) (s : State), s.halt = false →
    (issue w s = .next { s with err := 5, halt := true } ↔ ∃ e, decode w = .error e))

/-- Bits of the written value above bit 7 are ignored (R45). -/
def Obligations.CommandIsTheLowByteOfTheWrite : Prop :=
  ∀ (s : State) (v w : Nat), v % 256 = w % 256 → hostWrite (.reg 0) v s = hostWrite (.reg 0) w s

/-- A step whose host access is a write to `CMD` of a block that is not halted runs the decoded command on the state without
that access (R50; the inbox is the model's own, log entry 4). -/
def Obligations.StepRunsTheDecodedCommand : Prop :=
  (∀ (s : State) (v : Nat) (rest : List HostStep) (i : Instr), s.halt = false →
    s.inbox = .write (.reg 0) v :: rest → decode (BitVec.ofNat 8 v) = .ok i →
    WellFormed i ∧ step s = exec i { s with inbox := rest }) ∧
  (∀ (s : State) (nbits w : Nat) (i : Instr), s.halt = false → decodeTableWord nbits w = some i →
    step (s.withFetchWord nbits w) = exec i s)

/-! ## Registers, memories and host access (spec/10_state.md, spec/20_memory.md) -/

/-- R15: the mux outputs; they are seen in `STATUS[2]` and in register 10, and depend on `PB` and `RSEL` alone. -/
def Obligations.MuxOutputsFollowPbAndRsel : Prop :=
  (∀ s : State, s.sout = s.pb.getLsbD s.rsel.toNat ∧ s.spix = (if s.sout then 0xFF else 0x00) ∧
    s.status.getLsbD 2 = s.sout ∧ hostRead s (.reg 10) = s.spix.setWidth 16) ∧
  (∀ s t : State, t.pb = s.pb → t.rsel = s.rsel → t.sout = s.sout ∧ t.spix = s.spix)

/-- The fields of `STATUS` at the places R21 gives them, and the word as one number. -/
def Obligations.StatusWordHasTheTablesLayout : Prop :=
  ∀ s : State, s.status.getLsbD 0 = s.halt ∧ s.status.getLsbD 1 = s.gwarn ∧ s.status.getLsbD 2 = s.sout ∧
    s.status.getLsbD 3 = false ∧ s.status.extractLsb' 4 4 = s.err ∧
    s.status.toNat = s.err.toNat * 16 + s.sout.toNat * 4 + s.gwarn.toNat * 2 + s.halt.toNat ∧
    hostRead s (.reg 1) = s.status.setWidth 16

/-- R23: what each register number reads; a write of a read/write register stores the value truncated to its width and
moves no other register but `STATUS` and `SPIX`, which follow `PB` and `RSEL`; read-only and unimplemented numbers ignore
writes, and `CMD` and the unimplemented read 0. -/
def Obligations.RegisterSpaceFollowsTheTable : Prop :=
  (∀ s : State, hostRead s (.reg 0) = 0 ∧ hostRead s (.reg 1) = s.status.setWidth 16 ∧
    hostRead s (.reg 2) = s.thresh.setWidth 16 ∧ hostRead s (.reg 3) = s.width ∧ hostRead s (.reg 4) = s.height ∧
    hostRead s (.reg 5) = s.len ∧ hostRead s (.reg 6) = s.cslen.setWidth 16 ∧
    hostRead s (.reg 7) = s.cin.setWidth 16 ∧ hostRead s (.reg 8) = s.pb.setWidth 16 ∧
    hostRead s (.reg 9) = s.rsel.setWidth 16 ∧ hostRead s (.reg 10) = s.spix.setWidth 16 ∧
    hostRead s (.reg 11) = s.gbcnt ∧ hostRead s (.reg 12) = s.gocnt ∧
    (∀ i : Fin 8, hostRead s (.reg (16 + i.val)) = s.cout[i].setWidth 16) ∧
    (∀ n, 13 ≤ n → n ≤ 15 ∨ 24 ≤ n → hostRead s (.reg n) = 0)) ∧
  (∀ (s : State) (n w v : Nat), s.halt = false →
    (n, w) ∈ [(2, 8), (3, 16), (4, 16), (5, 16), (6, 8), (7, 8), (8, 8), (9, 3)] →
    ∃ t, hostWrite (.reg n) v s = .next t ∧ (hostRead t (.reg n)).toNat = v % 2 ^ w ∧
      (∀ l, l ≠ .reg n → (n = 8 ∨ n = 9 → l ≠ .reg 1 ∧ l ≠ .reg 10) → hostRead t l = hostRead s l) ∧
      t.halt = s.halt ∧ t.gwarn = s.gwarn ∧ t.err = s.err) ∧
  (∀ (s : State) (n v : Nat), n = 1 ∨ (10 ≤ n ∧ n ≤ 15) ∨ 16 ≤ n → hostWrite (.reg n) v s = .next s)

/-- A host write of a memory element, not halted: that element reads as the value truncated to its width, every other
element of every space reads as before (R40; the 16-bit shape of a read is log entry 5). -/
def Obligations.HostWriteStoresOneElement : Prop :=
  ∀ (s : State) (l : Loc) (v : Nat), s.halt = false → l.isMemory = true →
    ∃ t, hostWrite l v s = .next t ∧
      (hostRead t l).toNat = v % (if (∃ a, l = .goffs a) ∨ (∃ a, l = .cmaptab a) then 2 ^ 16 else 2 ^ 8) ∧
      ∀ l', l' ≠ l → hostRead t l' = hostRead s l'

/-- A host read changes nothing of the block, halted or not, and two reads of one element in a row agree (R38, R40; where the
result goes is log entry 5). -/
def Obligations.HostReadChangesNothing : Prop :=
  ∀ (s : State) (l : Loc) (rest : List HostStep), s.inbox = .read l :: .read l :: rest →
    ∃ t, runSteps 2 s = .next t ∧ t.block = s.block ∧ t.inbox = rest ∧
      t.replies = s.replies ++ [hostRead s l, hostRead s l]

/-- Who writes what (the 'written by' columns of R23 and R25, R11 to R20): if a step changes a register or a memory, it runs
the one command that writes it, or is the host's write of it, or is a reset. -/
def Obligations.EachStateIsWrittenOnlyByItsWriters : Prop :=
  ∀ s t : State, step s = .next t → s.resetsNext ∨
    ((t.cin ≠ s.cin → s.writesNext (.reg 7)) ∧
     (t.pb ≠ s.pb → s.issued = some .packc ∨ s.writesNext (.reg 8)) ∧
     (t.cout ≠ s.cout → s.issued = some .unpkc) ∧
     (t.rsel ≠ s.rsel → s.issued = some .sern ∨ (∃ r, r < 8 ∧ s.issued = some (.selr r)) ∨ s.writesNext (.reg 9)) ∧
     (t.thresh ≠ s.thresh → s.writesNext (.reg 2)) ∧
     (t.width ≠ s.width → s.issued = some .fdec ∨ s.writesNext (.reg 3)) ∧
     (t.height ≠ s.height → s.issued = some .fdec ∨ s.writesNext (.reg 4)) ∧
     (t.len ≠ s.len → s.issued = some .fenc ∨ s.writesNext (.reg 5)) ∧
     (t.cslen ≠ s.cslen → s.writesNext (.reg 6)) ∧
     (t.gbcnt ≠ s.gbcnt ∨ t.gocnt ≠ s.gocnt ∨ t.gwarn ≠ s.gwarn → s.issued = some .gscan) ∧
     (t.pix ≠ s.pix → s.issued = some .fdec ∨ ∃ a, s.writesNext (.pix a)) ∧
     (t.pkd ≠ s.pkd → s.issued = some .fenc ∨ ∃ a, s.writesNext (.pkd a)) ∧
     (t.gbytes ≠ s.gbytes → s.issued = some .gscan ∨ ∃ a, s.writesNext (.gbytes a)) ∧
     (t.goffs ≠ s.goffs → s.issued = some .gscan ∨ ∃ a, s.writesNext (.goffs a)) ∧
     (t.charset ≠ s.charset → ∃ a, s.writesNext (.charset a)) ∧
     (t.cmaptab ≠ s.cmaptab → s.issued = some .cmap ∨ ∃ a, s.writesNext (.cmaptab a)) ∧
     (t.halt ≠ s.halt ∨ t.err ≠ s.err → s.writesNext (.reg 0)))

/-- No command reads a flag as an operand (R29): with other flags the command runs the same, all but the flags it leaves. -/
def Obligations.NoCommandReadsAFlag : Prop :=
  ∀ (i : Instr) (s : State) (halt gwarn : Bool) (err : BitVec 4), ∃ t u, exec i s = .next t ∧
    exec i { s with halt := halt, gwarn := gwarn, err := err } = .next u ∧
    t = { u with halt := t.halt, gwarn := t.gwarn, err := t.err }

/-! ## Faults and the halted state (spec/60_exceptions.md) -/

/-- R86 to R89: each fault of a command is raised by that command alone, and exactly on its condition. -/
def Obligations.EachFaultHasExactlyItsCondition : Prop :=
  ∀ (i : Instr) (s : State), s.halt = false →
    (exec i s = .next { s with err := 1, halt := true } ↔ i = .fdec ∧ s.len.toNat ≠ 1024) ∧
    (exec i s = .next { s with err := 2, halt := true } ↔
      i = .fenc ∧ (s.width.toNat ≠ 128 ∨ s.height.toNat ≠ 64)) ∧
    (exec i s = .next { s with err := 3, halt := true } ↔ i = .gscan ∧ s.height.toNat ≠ 8) ∧
    (exec i s = .next { s with err := 4, halt := true } ↔
      i = .gscan ∧ s.height.toNat = 8 ∧ 1024 < s.width.toNat)

/-- R91: halted, nothing is raised; a reserved word comes before any check; `GSCAN` checks the height before the width; the
six commands without checks raise nothing. -/
def Obligations.FirstFaultInTheOrderOfChecks : Prop :=
  (∀ (s : State) (v : Nat), s.halt = true → hostWrite (.reg 0) v s = .next s) ∧
  (∀ (s : State) (v : Nat) (e : Reserved), s.halt = false → decode (BitVec.ofNat 8 v) = .error e →
    hostWrite (.reg 0) v s = .next (s.raise .illegalCommand)) ∧
  (∀ s : State, s.width.toNat ≠ 128 ∨ s.height.toNat ≠ 64 → exec .fenc s = .next (s.raise .dimension)) ∧
  (∀ s : State, s.len.toNat ≠ 1024 → exec .fdec s = .next (s.raise .sizeMismatch)) ∧
  (∀ s : State, s.height.toNat ≠ 8 → exec .gscan s = .next (s.raise .glyphHeight)) ∧
  (∀ s : State, s.height.toNat = 8 → 1024 < s.width.toNat → exec .gscan s = .next (s.raise .capacity)) ∧
  (∀ (i : Instr) (s : State), i ≠ .fenc → i ≠ .fdec → i ≠ .gscan →
    ∃ t, exec i s = .next t ∧ t.halt = s.halt ∧ t.err = s.err)

/-- R92, R99: fault entry stores the code and sets `HALT`; a command that faults has done nothing else. -/
def Obligations.FaultingCommandChangesOnlyStatus : Prop :=
  (∀ (s : State) (c : Cause), s.raise c = { s with err := c.code, halt := true }) ∧
  (∀ (w : BitVec 8) (s t : State), s.halt = false → issue w s = .next t → t.halt = true →
    ∃ c : Cause, t = { s with err := c.code, halt := true })

/-- R93: while halted, any number of host steps without a reset leave the block as it is, its first fault code included, and
every read among them returns what the fault left. -/
def Obligations.HaltedBlockIsFrozenButReadable : Prop :=
  (∀ (s : State) (l : Loc) (v : Nat), s.halt = true → hostWrite l v s = .next s) ∧
  (∀ (n : Nat) (s : State), s.halt = true → HostStep.reset ∉ s.inbox.take n →
    ∃ t, runSteps n s = .next t ∧ t.block = s.block ∧
      t.replies = s.replies ++ (s.inbox.take n).filterMap (replyOf s))

/-! ## Reset, hazards, termination (spec/70_reset_and_hazards.md) -/

/-- The register values R28 gives for reset; `SOUT` and `SPIX` follow; no memory element has a known value. -/
def Obligations.ResetStateHoldsTheSpecsValues : Prop :=
  State.reset.status = 0x00 ∧ State.reset.halt = false ∧ State.reset.gwarn = false ∧ State.reset.err = 0 ∧
  State.reset.thresh = 128 ∧ State.reset.width = 0 ∧ State.reset.height = 0 ∧ State.reset.len = 0 ∧
  State.reset.cslen = 0 ∧ State.reset.cin = 0 ∧ State.reset.pb = 0 ∧ State.reset.rsel = 0 ∧
  (∀ i : Fin 8, State.reset.cout[i] = 0x00) ∧ State.reset.gbcnt = 0 ∧ State.reset.gocnt = 0 ∧
  State.reset.sout = false ∧ State.reset.spix = 0x00 ∧
  State.reset.pix = [] ∧ State.reset.pkd = [] ∧ State.reset.gbytes = [] ∧ State.reset.goffs = [] ∧
  State.reset.charset = [] ∧ State.reset.cmaptab = []

/-- `Reset()` in any state, halted or not: registers as after reset, memories unspecified anew (the new epoch of free values
is the model's own, log entries 1 and 3). -/
def Obligations.ResetStepRestoresTheResetState : Prop :=
  ∀ (s : State) (rest : List HostStep), s.inbox = .reset :: rest →
    ∃ t, step s = .next t ∧ t.block = { State.reset with epoch := s.epoch + 1 } ∧ t.inbox = rest ∧
      t.replies = s.replies

/-- R100: `Reset()` may be taken in any state, halted or not, and clears `HALT` and `ERR`; it is the only step that changes a
halted block and the only one that clears `HALT` or `ERR`. -/
def Obligations.OnlyResetLeavesTheHaltedState : Prop :=
  (∀ s : State, s.resetsNext → ∃ t, step s = .next t ∧ t.halt = false ∧ t.err = 0) ∧
  ∀ s t : State, step s = .next t →
    (s.halt = true → t.block ≠ s.block → s.resetsNext) ∧
    (s.halt = true → t.halt = false → s.resetsNext) ∧
    (BlockInv s → s.err ≠ 0 → t.err = 0 → s.resetsNext)

/-- The buffer-reuse hazards of R106: `GSCAN` after `FDEC` faults on the height, `FENC` on a glyph sheet on the dimensions. -/
def Obligations.BufferReuseFaults : Prop :=
  (∀ s : State, s.len = 1024 → ∃ t, exec .fdec s = .next t ∧
    execAll [.fdec, .gscan] s = .next { t with err := 3, halt := true }) ∧
  (∀ s : State, s.height = 8 → exec .fenc s = .next { s with err := 2, halt := true }) ∧
  (∀ s : State, s.width = 128 → s.height = 64 → s.len ≠ 1024 → ∃ t, exec .fenc s = .next t ∧ t.len = 1024 ∧
    ∃ u, execAll [.fenc, .fdec] s = .next u ∧ u.halt = s.halt)

/-- R107: nothing but the mux outputs tracks a later write: `GWARN`, `CMAPTAB`, `PKD` and `COUT` stay as they were computed. -/
def Obligations.ParametersAreSampledAtIssue : Prop :=
  ∀ (s : State) (v : Nat), s.halt = false →
    hostWrite (.reg 6) v s = .next { s with cslen := BitVec.ofNat 8 v } ∧
    (∀ a, ∃ t, hostWrite (.charset a) v s = .next t ∧ t = { s with charset := t.charset }) ∧
    (∀ a, ∃ t, hostWrite (.pix a) v s = .next t ∧ t = { s with pix := t.pix }) ∧
    hostWrite (.reg 2) v s = .next { s with thresh := BitVec.ofNat 8 v } ∧
    ∃ t, hostWrite (.reg 8) v s = .next t ∧ t = { s with pb := BitVec.ofNat 8 v } ∧
      t.sout = (BitVec.ofNat 8 v).getLsbD s.rsel.toNat ∧ t.spix = unpack (BitVec.ofNat 8 v) s.rsel.toNat

/-- Every command and every step ends in a next state: the block never hangs, and no step of the model stops (R111). -/
def Obligations.EveryCommandCompletes : Prop :=
  (∀ (i : Instr) (s : State), ∃ t, exec i s = .next t) ∧ (∀ s : State, ∃ t, step s = .next t)

/-- `LOADPIX h, w, data` (R52) on a block that is not halted leaves the bitmap in `PIX`, row-major with pitch `w` (R31), and its
dimensions; nothing else of the block changes. -/
def Obligations.LoadPixPlacesTheBitmap : Prop :=
  ∀ (s : State) (h w : Nat) (data : List Byte), s.halt = false → h < 65536 → w < 65536 → h * w ≤ 8192 →
    data.length = h * w →
    ∃ t, runSteps (h * w + 2) { s with inbox := loadPix h w data } = .next t ∧
      t = { s with width := BitVec.ofNat 16 w, height := BitVec.ofNat 16 h, pix := t.pix, inbox := [] } ∧
      (∀ r c, r < h → c < w → some (t.pixel r c) = data[r * w + c]?) ∧
      (∀ a, h * w ≤ a → a < 8192 → t.pixAt a = s.pixAt a)

/-! ## The invariant -/

/-- The invariant holds right after reset. -/
def Obligations.ResetStateMeetsTheInvariant : Prop := BlockInv State.reset

/-- Every step keeps the invariant: canonical memories inside their spaces, `HALT` iff `ERR`, codes 0 to 5, `COUT` lanes
`0xFF` or `0x00`, the ranges of `GBCNT` and `GOCNT`. -/
def Obligations.EveryStepKeepsTheInvariant : Prop :=
  ∀ s t : State, BlockInv s → step s = .next t → BlockInv t
end

