-- ==== Sys2Proof/Laws/Memory.lean ====
section
/-! SUPPORT. Reading, writing and the canonical form of one memory. -/

namespace Sys2Proof.Machine

variable {α : Type}

@[simp] theorem Memory.read_nil (a : Nat) : Memory.read ([] : Memory α) a = none := rfl

/-! ## The canonical form -/

theorem Memory.risingFrom_mono {hi : Nat} {m : Memory α} {lo lo' : Nat} (h : lo' ≤ lo)
    (hm : Memory.risingFrom hi lo m = true) : Memory.risingFrom hi lo' m = true := by
  cases m with
  | nil => rfl
  | cons c m =>
    simp only [Memory.risingFrom, Bool.and_eq_true, decide_eq_true_eq] at hm ⊢
    exact ⟨⟨by omega, hm.1.2⟩, hm.2⟩

/-- Below its first index a rising memory lists nothing. -/
theorem Memory.read_eq_none_of_lt {hi : Nat} {m : Memory α} {lo a : Nat}
    (hm : Memory.risingFrom hi lo m = true) (h : a < lo) : m.read a = none := by
  induction m generalizing lo with
  | nil => rfl
  | cons c m ih =>
    simp only [Memory.risingFrom, Bool.and_eq_true, decide_eq_true_eq] at hm
    rw [Memory.read, if_neg (by omega)]
    exact ih hm.2 (by omega)

/-- Outside its space a rising memory lists nothing. -/
theorem Memory.read_eq_none_of_ge {hi : Nat} {m : Memory α} {lo a : Nat}
    (hm : Memory.risingFrom hi lo m = true) (h : hi ≤ a) : m.read a = none := by
  induction m generalizing lo with
  | nil => rfl
  | cons c m ih =>
    simp only [Memory.risingFrom, Bool.and_eq_true, decide_eq_true_eq] at hm
    rw [Memory.read, if_neg (by omega)]
    exact ih hm.2

/-- Two canonical memories that read alike are equal. -/
theorem Memory.ext_of_rising {hi : Nat} {m m' : Memory α} {lo : Nat}
    (hm : Memory.risingFrom hi lo m = true) (hm' : Memory.risingFrom hi lo m' = true)
    (h : ∀ a, m.read a = m'.read a) : m = m' := by
  induction m generalizing m' lo with
  | nil =>
    cases m' with
    | nil => rfl
    | cons c m' => simpa [Memory.read] using h c.1
  | cons c m ih =>
    cases m' with
    | nil => simpa [Memory.read] using h c.1
    | cons c' m' =>
      simp only [Memory.risingFrom, Bool.and_eq_true, decide_eq_true_eq] at hm hm'
      have hc : c.1 = c'.1 := by
        rcases Nat.lt_trichotomy c.1 c'.1 with hlt | heq | hlt
        · have := h c.1
          rw [Memory.read, if_pos rfl, Memory.read, if_neg (by omega),
            Memory.read_eq_none_of_lt hm'.2 (by omega)] at this
          cases this
        · exact heq
        · have := h c'.1
          rw [Memory.read, if_neg (by omega), Memory.read_eq_none_of_lt hm.2 (by omega), Memory.read,
            if_pos rfl] at this
          cases this
      have hv : c.2 = c'.2 := by
        have := h c.1
        rw [Memory.read, if_pos rfl, Memory.read, if_pos hc] at this
        exact Option.some.inj this
      have hc' : c = c' := Prod.ext hc hv
      subst hc'
      refine congrArg _ (ih hm.2 hm'.2 fun a => ?_)
      by_cases ha : a < c.1 + 1
      · rw [Memory.read_eq_none_of_lt hm.2 ha, Memory.read_eq_none_of_lt hm'.2 ha]
      · have := h a
        rwa [Memory.read, if_neg (by omega), Memory.read, if_neg (by omega)] at this

theorem Memory.ext_of_wf {size : Nat} {m m' : Memory α} (hm : Memory.wf size m = true)
    (hm' : Memory.wf size m' = true) (h : ∀ a, m.read a = m'.read a) : m = m' :=
  Memory.ext_of_rising hm hm' h

/-! ## Writing one element -/

theorem Memory.read_write (m : Memory α) (a b : Nat) (v : α) :
    (m.write a v).read b = if b = a then some v else m.read b := by
  induction m with
  | nil => rfl
  | cons c m ih =>
    rw [Memory.write]
    by_cases h1 : a < c.1
    · rw [if_pos h1]; rfl
    · rw [if_neg h1]
      by_cases h2 : a = c.1
      · rw [if_pos h2, Memory.read, Memory.read, ← h2]
        by_cases h3 : b = a <;> simp [h3]
      · rw [if_neg h2, Memory.read, Memory.read, ih]
        by_cases h3 : b = c.1
        · rw [if_pos h3, if_pos h3, if_neg (by omega)]
        · rw [if_neg h3, if_neg h3]

@[simp] theorem Memory.read_write_same (m : Memory α) (a : Nat) (v : α) : (m.write a v).read a = some v := by
  rw [Memory.read_write, if_pos rfl]

theorem Memory.read_write_ne (m : Memory α) {a b : Nat} (v : α) (h : b ≠ a) :
    (m.write a v).read b = m.read b := by
  rw [Memory.read_write, if_neg h]

theorem Memory.risingFrom_write {hi lo a : Nat} {m : Memory α} (v : α)
    (hm : Memory.risingFrom hi lo m = true) (hlo : lo ≤ a) (ha : a < hi) :
    Memory.risingFrom hi lo (m.write a v) = true := by
  induction m generalizing lo with
  | nil => simp [Memory.write, Memory.risingFrom, hlo, ha]
  | cons c m ih =>
    simp only [Memory.risingFrom, Bool.and_eq_true, decide_eq_true_eq] at hm
    simp only [Memory.write]
    split_ifs with h1 h2
    · simp only [Memory.risingFrom, Bool.and_eq_true, decide_eq_true_eq]
      exact ⟨⟨hlo, ha⟩, ⟨h1, hm.1.2⟩, hm.2⟩
    · subst h2
      simp only [Memory.risingFrom, Bool.and_eq_true, decide_eq_true_eq]
      exact ⟨⟨hlo, ha⟩, hm.2⟩
    · simp only [Memory.risingFrom, Bool.and_eq_true, decide_eq_true_eq]
      exact ⟨hm.1, ih hm.2 (by omega)⟩

/-- A write inside the space keeps the canonical form. -/
theorem Memory.wf_write {size a : Nat} {m : Memory α} (v : α) (hm : Memory.wf size m = true) (ha : a < size) :
    Memory.wf size (m.write a v) = true :=
  Memory.risingFrom_write v hm (Nat.zero_le a) ha

/-! ## Writing a table -/

theorem read_cellsFrom_append (k : Nat) (vs : List α) (m : Memory α) (a : Nat) :
    Memory.read (cellsFrom k vs ++ m) a =
      if k ≤ a ∧ a < k + vs.length then vs[a - k]? else Memory.read m a := by
  induction vs generalizing k with
  | nil =>
    rw [if_neg (by simp only [List.length_nil]; omega)]; rfl
  | cons v vs ih =>
    rw [cellsFrom, List.cons_append, Memory.read, ih]
    by_cases h : a = k
    · subst h; simp
    · by_cases h1 : k + 1 ≤ a ∧ a < k + 1 + vs.length
      · rw [if_neg h, if_pos h1, if_pos (by simp only [List.length_cons]; omega),
          show a - k = (a - (k + 1)) + 1 by omega, List.getElem?_cons_succ]
      · rw [if_neg h, if_neg h1, if_neg (by simp only [List.length_cons]; omega)]

theorem Memory.read_filter_ge (m : Memory α) (n a : Nat) :
    Memory.read (m.filter fun c => decide (n ≤ c.1)) a = if n ≤ a then m.read a else none := by
  induction m with
  | nil => simp
  | cons c m ih =>
    simp only [List.filter_cons]
    split_ifs with h1 h2 h2
    · simp only [Memory.read, ih, if_pos h2]
    · simp only [decide_eq_true_eq] at h1
      rw [Memory.read, if_neg (by omega), ih, if_neg h2]
    · simp only [decide_eq_true_eq] at h1
      rw [ih, if_pos h2, Memory.read, if_neg (by omega)]
    · rw [ih, if_neg h2]

/-- What a table write leaves at each index: the table's value below its length, the old one above. -/
theorem Memory.read_writeTable (m : Memory α) (vals : List α) (a : Nat) :
    (m.writeTable vals).read a = if a < vals.length then vals[a]? else m.read a := by
  rw [Memory.writeTable, read_cellsFrom_append, Memory.read_filter_ge]
  split_ifs <;> first | rfl | omega

theorem Memory.read_writeTable_of_lt (m : Memory α) {vals : List α} {a : Nat} (h : a < vals.length) :
    (m.writeTable vals).read a = some vals[a] := by
  rw [Memory.read_writeTable, if_pos h, List.getElem?_eq_getElem h]

theorem Memory.read_writeTable_of_ge (m : Memory α) {vals : List α} {a : Nat} (h : vals.length ≤ a) :
    (m.writeTable vals).read a = m.read a := by
  rw [Memory.read_writeTable, if_neg (by omega)]

theorem risingFrom_cellsFrom_append {hi k : Nat} {vs : List α} {m : Memory α} (hk : k + vs.length ≤ hi)
    (hm : Memory.risingFrom hi (k + vs.length) m = true) :
    Memory.risingFrom hi k (cellsFrom k vs ++ m) = true := by
  induction vs generalizing k with
  | nil => simpa [cellsFrom] using hm
  | cons v vs ih =>
    simp only [List.length_cons] at hk hm
    rw [cellsFrom, List.cons_append, Memory.risingFrom]
    simp only [Bool.and_eq_true, decide_eq_true_eq]
    exact ⟨⟨Nat.le_refl k, by omega⟩, ih (by omega) (by rwa [show k + 1 + vs.length = k + (vs.length + 1) by omega])⟩

theorem Memory.risingFrom_filter_ge {hi lo n : Nat} {m : Memory α} (hm : Memory.risingFrom hi lo m = true) :
    Memory.risingFrom hi n (m.filter fun c => decide (n ≤ c.1)) = true := by
  induction m generalizing lo n with
  | nil => rfl
  | cons c m ih =>
    simp only [Memory.risingFrom, Bool.and_eq_true, decide_eq_true_eq] at hm
    simp only [List.filter_cons]
    split_ifs with h
    · simp only [decide_eq_true_eq] at h
      have hf : m.filter (fun d => decide (n ≤ d.1)) = m.filter (fun d => decide (c.1 + 1 ≤ d.1)) := by
        clear ih
        have : ∀ (lo : Nat), c.1 + 1 ≤ lo → Memory.risingFrom hi lo m = true →
            m.filter (fun d => decide (n ≤ d.1)) = m.filter (fun d => decide (c.1 + 1 ≤ d.1)) := by
          clear hm
          induction m with
          | nil => intros; rfl
          | cons d m ihm =>
            intro lo hlo hm
            simp only [Memory.risingFrom, Bool.and_eq_true, decide_eq_true_eq] at hm
            rw [List.filter_cons_of_pos (by simp only [decide_eq_true_eq]; omega),
              List.filter_cons_of_pos (by simp only [decide_eq_true_eq]; omega),
              ihm (d.1 + 1) (by omega) hm.2]
        exact this _ (Nat.le_refl _) hm.2
      simp only [Memory.risingFrom, Bool.and_eq_true, decide_eq_true_eq]
      exact ⟨⟨h, hm.1.2⟩, by rw [hf]; exact ih hm.2⟩
    · exact ih hm.2

/-- A table that fits the space keeps the canonical form. -/
theorem Memory.wf_writeTable {size : Nat} {m : Memory α} {vals : List α} (hm : Memory.wf size m = true)
    (hv : vals.length ≤ size) : Memory.wf size (m.writeTable vals) = true :=
  risingFrom_cellsFrom_append (by omega) (by rw [Nat.zero_add]; exact Memory.risingFrom_filter_ge hm)

@[simp] theorem Memory.wf_nil (size : Nat) : Memory.wf size ([] : Memory α) = true := rfl

end Sys2Proof.Machine
end

