-- ==== Sys2Proof/Laws/State.lean ====
section
/-! SUPPORT. One lemma per field per named update of the state (true by rfl), for simp. -/

namespace Sys2Proof.Machine

/-! ## `s.raise c` -/

@[simp] theorem State.raise_cin (s : State) (c : Cause) : (s.raise c).cin = s.cin := rfl
@[simp] theorem State.raise_pb (s : State) (c : Cause) : (s.raise c).pb = s.pb := rfl
@[simp] theorem State.raise_cout (s : State) (c : Cause) : (s.raise c).cout = s.cout := rfl
@[simp] theorem State.raise_rsel (s : State) (c : Cause) : (s.raise c).rsel = s.rsel := rfl
@[simp] theorem State.raise_thresh (s : State) (c : Cause) : (s.raise c).thresh = s.thresh := rfl
@[simp] theorem State.raise_width (s : State) (c : Cause) : (s.raise c).width = s.width := rfl
@[simp] theorem State.raise_height (s : State) (c : Cause) : (s.raise c).height = s.height := rfl
@[simp] theorem State.raise_len (s : State) (c : Cause) : (s.raise c).len = s.len := rfl
@[simp] theorem State.raise_cslen (s : State) (c : Cause) : (s.raise c).cslen = s.cslen := rfl
@[simp] theorem State.raise_gbcnt (s : State) (c : Cause) : (s.raise c).gbcnt = s.gbcnt := rfl
@[simp] theorem State.raise_gocnt (s : State) (c : Cause) : (s.raise c).gocnt = s.gocnt := rfl
@[simp] theorem State.raise_halt (s : State) (c : Cause) : (s.raise c).halt = true := rfl
@[simp] theorem State.raise_gwarn (s : State) (c : Cause) : (s.raise c).gwarn = s.gwarn := rfl
@[simp] theorem State.raise_err (s : State) (c : Cause) : (s.raise c).err = c.code := rfl
@[simp] theorem State.raise_pix (s : State) (c : Cause) : (s.raise c).pix = s.pix := rfl
@[simp] theorem State.raise_pkd (s : State) (c : Cause) : (s.raise c).pkd = s.pkd := rfl
@[simp] theorem State.raise_gbytes (s : State) (c : Cause) : (s.raise c).gbytes = s.gbytes := rfl
@[simp] theorem State.raise_goffs (s : State) (c : Cause) : (s.raise c).goffs = s.goffs := rfl
@[simp] theorem State.raise_charset (s : State) (c : Cause) : (s.raise c).charset = s.charset := rfl
@[simp] theorem State.raise_cmaptab (s : State) (c : Cause) : (s.raise c).cmaptab = s.cmaptab := rfl
@[simp] theorem State.raise_epoch (s : State) (c : Cause) : (s.raise c).epoch = s.epoch := rfl
@[simp] theorem State.raise_inbox (s : State) (c : Cause) : (s.raise c).inbox = s.inbox := rfl
@[simp] theorem State.raise_replies (s : State) (c : Cause) : (s.raise c).replies = s.replies := rfl

/-! ## `s.takeReset` -/

@[simp] theorem State.takeReset_cin (s : State) : (s.takeReset).cin = State.reset.cin := rfl
@[simp] theorem State.takeReset_pb (s : State) : (s.takeReset).pb = State.reset.pb := rfl
@[simp] theorem State.takeReset_cout (s : State) : (s.takeReset).cout = State.reset.cout := rfl
@[simp] theorem State.takeReset_rsel (s : State) : (s.takeReset).rsel = State.reset.rsel := rfl
@[simp] theorem State.takeReset_thresh (s : State) : (s.takeReset).thresh = State.reset.thresh := rfl
@[simp] theorem State.takeReset_width (s : State) : (s.takeReset).width = State.reset.width := rfl
@[simp] theorem State.takeReset_height (s : State) : (s.takeReset).height = State.reset.height := rfl
@[simp] theorem State.takeReset_len (s : State) : (s.takeReset).len = State.reset.len := rfl
@[simp] theorem State.takeReset_cslen (s : State) : (s.takeReset).cslen = State.reset.cslen := rfl
@[simp] theorem State.takeReset_gbcnt (s : State) : (s.takeReset).gbcnt = State.reset.gbcnt := rfl
@[simp] theorem State.takeReset_gocnt (s : State) : (s.takeReset).gocnt = State.reset.gocnt := rfl
@[simp] theorem State.takeReset_halt (s : State) : (s.takeReset).halt = State.reset.halt := rfl
@[simp] theorem State.takeReset_gwarn (s : State) : (s.takeReset).gwarn = State.reset.gwarn := rfl
@[simp] theorem State.takeReset_err (s : State) : (s.takeReset).err = State.reset.err := rfl
@[simp] theorem State.takeReset_pix (s : State) : (s.takeReset).pix = State.reset.pix := rfl
@[simp] theorem State.takeReset_pkd (s : State) : (s.takeReset).pkd = State.reset.pkd := rfl
@[simp] theorem State.takeReset_gbytes (s : State) : (s.takeReset).gbytes = State.reset.gbytes := rfl
@[simp] theorem State.takeReset_goffs (s : State) : (s.takeReset).goffs = State.reset.goffs := rfl
@[simp] theorem State.takeReset_charset (s : State) : (s.takeReset).charset = State.reset.charset := rfl
@[simp] theorem State.takeReset_cmaptab (s : State) : (s.takeReset).cmaptab = State.reset.cmaptab := rfl
@[simp] theorem State.takeReset_epoch (s : State) : (s.takeReset).epoch = s.epoch + 1 := rfl
@[simp] theorem State.takeReset_inbox (s : State) : (s.takeReset).inbox = s.inbox := rfl
@[simp] theorem State.takeReset_replies (s : State) : (s.takeReset).replies = s.replies := rfl

/-! ## `s.block` -/

@[simp] theorem State.block_cin (s : State) : (s.block).cin = s.cin := rfl
@[simp] theorem State.block_pb (s : State) : (s.block).pb = s.pb := rfl
@[simp] theorem State.block_cout (s : State) : (s.block).cout = s.cout := rfl
@[simp] theorem State.block_rsel (s : State) : (s.block).rsel = s.rsel := rfl
@[simp] theorem State.block_thresh (s : State) : (s.block).thresh = s.thresh := rfl
@[simp] theorem State.block_width (s : State) : (s.block).width = s.width := rfl
@[simp] theorem State.block_height (s : State) : (s.block).height = s.height := rfl
@[simp] theorem State.block_len (s : State) : (s.block).len = s.len := rfl
@[simp] theorem State.block_cslen (s : State) : (s.block).cslen = s.cslen := rfl
@[simp] theorem State.block_gbcnt (s : State) : (s.block).gbcnt = s.gbcnt := rfl
@[simp] theorem State.block_gocnt (s : State) : (s.block).gocnt = s.gocnt := rfl
@[simp] theorem State.block_halt (s : State) : (s.block).halt = s.halt := rfl
@[simp] theorem State.block_gwarn (s : State) : (s.block).gwarn = s.gwarn := rfl
@[simp] theorem State.block_err (s : State) : (s.block).err = s.err := rfl
@[simp] theorem State.block_pix (s : State) : (s.block).pix = s.pix := rfl
@[simp] theorem State.block_pkd (s : State) : (s.block).pkd = s.pkd := rfl
@[simp] theorem State.block_gbytes (s : State) : (s.block).gbytes = s.gbytes := rfl
@[simp] theorem State.block_goffs (s : State) : (s.block).goffs = s.goffs := rfl
@[simp] theorem State.block_charset (s : State) : (s.block).charset = s.charset := rfl
@[simp] theorem State.block_cmaptab (s : State) : (s.block).cmaptab = s.cmaptab := rfl
@[simp] theorem State.block_epoch (s : State) : (s.block).epoch = s.epoch := rfl
@[simp] theorem State.block_inbox (s : State) : (s.block).inbox = [] := rfl
@[simp] theorem State.block_replies (s : State) : (s.block).replies = [] := rfl

/-! ## `s.setInbox rest` -/

@[simp] theorem State.setInbox_cin (s : State) (rest : List HostStep) : (s.setInbox rest).cin = s.cin := rfl
@[simp] theorem State.setInbox_pb (s : State) (rest : List HostStep) : (s.setInbox rest).pb = s.pb := rfl
@[simp] theorem State.setInbox_cout (s : State) (rest : List HostStep) : (s.setInbox rest).cout = s.cout := rfl
@[simp] theorem State.setInbox_rsel (s : State) (rest : List HostStep) : (s.setInbox rest).rsel = s.rsel := rfl
@[simp] theorem State.setInbox_thresh (s : State) (rest : List HostStep) : (s.setInbox rest).thresh = s.thresh := rfl
@[simp] theorem State.setInbox_width (s : State) (rest : List HostStep) : (s.setInbox rest).width = s.width := rfl
@[simp] theorem State.setInbox_height (s : State) (rest : List HostStep) : (s.setInbox rest).height = s.height := rfl
@[simp] theorem State.setInbox_len (s : State) (rest : List HostStep) : (s.setInbox rest).len = s.len := rfl
@[simp] theorem State.setInbox_cslen (s : State) (rest : List HostStep) : (s.setInbox rest).cslen = s.cslen := rfl
@[simp] theorem State.setInbox_gbcnt (s : State) (rest : List HostStep) : (s.setInbox rest).gbcnt = s.gbcnt := rfl
@[simp] theorem State.setInbox_gocnt (s : State) (rest : List HostStep) : (s.setInbox rest).gocnt = s.gocnt := rfl
@[simp] theorem State.setInbox_halt (s : State) (rest : List HostStep) : (s.setInbox rest).halt = s.halt := rfl
@[simp] theorem State.setInbox_gwarn (s : State) (rest : List HostStep) : (s.setInbox rest).gwarn = s.gwarn := rfl
@[simp] theorem State.setInbox_err (s : State) (rest : List HostStep) : (s.setInbox rest).err = s.err := rfl
@[simp] theorem State.setInbox_pix (s : State) (rest : List HostStep) : (s.setInbox rest).pix = s.pix := rfl
@[simp] theorem State.setInbox_pkd (s : State) (rest : List HostStep) : (s.setInbox rest).pkd = s.pkd := rfl
@[simp] theorem State.setInbox_gbytes (s : State) (rest : List HostStep) : (s.setInbox rest).gbytes = s.gbytes := rfl
@[simp] theorem State.setInbox_goffs (s : State) (rest : List HostStep) : (s.setInbox rest).goffs = s.goffs := rfl
@[simp] theorem State.setInbox_charset (s : State) (rest : List HostStep) : (s.setInbox rest).charset = s.charset := rfl
@[simp] theorem State.setInbox_cmaptab (s : State) (rest : List HostStep) : (s.setInbox rest).cmaptab = s.cmaptab := rfl
@[simp] theorem State.setInbox_epoch (s : State) (rest : List HostStep) : (s.setInbox rest).epoch = s.epoch := rfl
@[simp] theorem State.setInbox_inbox (s : State) (rest : List HostStep) : (s.setInbox rest).inbox = rest := rfl
@[simp] theorem State.setInbox_replies (s : State) (rest : List HostStep) : (s.setInbox rest).replies = s.replies := rfl

/-! ## `s.reply v` -/

@[simp] theorem State.reply_cin (s : State) (v : Half) : (s.reply v).cin = s.cin := rfl
@[simp] theorem State.reply_pb (s : State) (v : Half) : (s.reply v).pb = s.pb := rfl
@[simp] theorem State.reply_cout (s : State) (v : Half) : (s.reply v).cout = s.cout := rfl
@[simp] theorem State.reply_rsel (s : State) (v : Half) : (s.reply v).rsel = s.rsel := rfl
@[simp] theorem State.reply_thresh (s : State) (v : Half) : (s.reply v).thresh = s.thresh := rfl
@[simp] theorem State.reply_width (s : State) (v : Half) : (s.reply v).width = s.width := rfl
@[simp] theorem State.reply_height (s : State) (v : Half) : (s.reply v).height = s.height := rfl
@[simp] theorem State.reply_len (s : State) (v : Half) : (s.reply v).len = s.len := rfl
@[simp] theorem State.reply_cslen (s : State) (v : Half) : (s.reply v).cslen = s.cslen := rfl
@[simp] theorem State.reply_gbcnt (s : State) (v : Half) : (s.reply v).gbcnt = s.gbcnt := rfl
@[simp] theorem State.reply_gocnt (s : State) (v : Half) : (s.reply v).gocnt = s.gocnt := rfl
@[simp] theorem State.reply_halt (s : State) (v : Half) : (s.reply v).halt = s.halt := rfl
@[simp] theorem State.reply_gwarn (s : State) (v : Half) : (s.reply v).gwarn = s.gwarn := rfl
@[simp] theorem State.reply_err (s : State) (v : Half) : (s.reply v).err = s.err := rfl
@[simp] theorem State.reply_pix (s : State) (v : Half) : (s.reply v).pix = s.pix := rfl
@[simp] theorem State.reply_pkd (s : State) (v : Half) : (s.reply v).pkd = s.pkd := rfl
@[simp] theorem State.reply_gbytes (s : State) (v : Half) : (s.reply v).gbytes = s.gbytes := rfl
@[simp] theorem State.reply_goffs (s : State) (v : Half) : (s.reply v).goffs = s.goffs := rfl
@[simp] theorem State.reply_charset (s : State) (v : Half) : (s.reply v).charset = s.charset := rfl
@[simp] theorem State.reply_cmaptab (s : State) (v : Half) : (s.reply v).cmaptab = s.cmaptab := rfl
@[simp] theorem State.reply_epoch (s : State) (v : Half) : (s.reply v).epoch = s.epoch := rfl
@[simp] theorem State.reply_inbox (s : State) (v : Half) : (s.reply v).inbox = s.inbox := rfl
@[simp] theorem State.reply_replies (s : State) (v : Half) : (s.reply v).replies = s.replies ++ [v] := rfl

/-! ## `s.withCommand w` -/

@[simp] theorem State.withCommand_cin (s : State) (w : Nat) : (s.withCommand w).cin = s.cin := rfl
@[simp] theorem State.withCommand_pb (s : State) (w : Nat) : (s.withCommand w).pb = s.pb := rfl
@[simp] theorem State.withCommand_cout (s : State) (w : Nat) : (s.withCommand w).cout = s.cout := rfl
@[simp] theorem State.withCommand_rsel (s : State) (w : Nat) : (s.withCommand w).rsel = s.rsel := rfl
@[simp] theorem State.withCommand_thresh (s : State) (w : Nat) : (s.withCommand w).thresh = s.thresh := rfl
@[simp] theorem State.withCommand_width (s : State) (w : Nat) : (s.withCommand w).width = s.width := rfl
@[simp] theorem State.withCommand_height (s : State) (w : Nat) : (s.withCommand w).height = s.height := rfl
@[simp] theorem State.withCommand_len (s : State) (w : Nat) : (s.withCommand w).len = s.len := rfl
@[simp] theorem State.withCommand_cslen (s : State) (w : Nat) : (s.withCommand w).cslen = s.cslen := rfl
@[simp] theorem State.withCommand_gbcnt (s : State) (w : Nat) : (s.withCommand w).gbcnt = s.gbcnt := rfl
@[simp] theorem State.withCommand_gocnt (s : State) (w : Nat) : (s.withCommand w).gocnt = s.gocnt := rfl
@[simp] theorem State.withCommand_halt (s : State) (w : Nat) : (s.withCommand w).halt = s.halt := rfl
@[simp] theorem State.withCommand_gwarn (s : State) (w : Nat) : (s.withCommand w).gwarn = s.gwarn := rfl
@[simp] theorem State.withCommand_err (s : State) (w : Nat) : (s.withCommand w).err = s.err := rfl
@[simp] theorem State.withCommand_pix (s : State) (w : Nat) : (s.withCommand w).pix = s.pix := rfl
@[simp] theorem State.withCommand_pkd (s : State) (w : Nat) : (s.withCommand w).pkd = s.pkd := rfl
@[simp] theorem State.withCommand_gbytes (s : State) (w : Nat) : (s.withCommand w).gbytes = s.gbytes := rfl
@[simp] theorem State.withCommand_goffs (s : State) (w : Nat) : (s.withCommand w).goffs = s.goffs := rfl
@[simp] theorem State.withCommand_charset (s : State) (w : Nat) : (s.withCommand w).charset = s.charset := rfl
@[simp] theorem State.withCommand_cmaptab (s : State) (w : Nat) : (s.withCommand w).cmaptab = s.cmaptab := rfl
@[simp] theorem State.withCommand_epoch (s : State) (w : Nat) : (s.withCommand w).epoch = s.epoch := rfl
@[simp] theorem State.withCommand_inbox (s : State) (w : Nat) : (s.withCommand w).inbox = .write (.reg Reg.cmd.number) w :: s.inbox := rfl
@[simp] theorem State.withCommand_replies (s : State) (w : Nat) : (s.withCommand w).replies = s.replies := rfl

/-! ## `s.withFetchWord nbits w` -/

@[simp] theorem State.withFetchWord_cin (s : State) (nbits w : Nat) : (s.withFetchWord nbits w).cin = s.cin := rfl
@[simp] theorem State.withFetchWord_pb (s : State) (nbits w : Nat) : (s.withFetchWord nbits w).pb = s.pb := rfl
@[simp] theorem State.withFetchWord_cout (s : State) (nbits w : Nat) : (s.withFetchWord nbits w).cout = s.cout := rfl
@[simp] theorem State.withFetchWord_rsel (s : State) (nbits w : Nat) : (s.withFetchWord nbits w).rsel = s.rsel := rfl
@[simp] theorem State.withFetchWord_thresh (s : State) (nbits w : Nat) : (s.withFetchWord nbits w).thresh = s.thresh := rfl
@[simp] theorem State.withFetchWord_width (s : State) (nbits w : Nat) : (s.withFetchWord nbits w).width = s.width := rfl
@[simp] theorem State.withFetchWord_height (s : State) (nbits w : Nat) : (s.withFetchWord nbits w).height = s.height := rfl
@[simp] theorem State.withFetchWord_len (s : State) (nbits w : Nat) : (s.withFetchWord nbits w).len = s.len := rfl
@[simp] theorem State.withFetchWord_cslen (s : State) (nbits w : Nat) : (s.withFetchWord nbits w).cslen = s.cslen := rfl
@[simp] theorem State.withFetchWord_gbcnt (s : State) (nbits w : Nat) : (s.withFetchWord nbits w).gbcnt = s.gbcnt := rfl
@[simp] theorem State.withFetchWord_gocnt (s : State) (nbits w : Nat) : (s.withFetchWord nbits w).gocnt = s.gocnt := rfl
@[simp] theorem State.withFetchWord_halt (s : State) (nbits w : Nat) : (s.withFetchWord nbits w).halt = s.halt := rfl
@[simp] theorem State.withFetchWord_gwarn (s : State) (nbits w : Nat) : (s.withFetchWord nbits w).gwarn = s.gwarn := rfl
@[simp] theorem State.withFetchWord_err (s : State) (nbits w : Nat) : (s.withFetchWord nbits w).err = s.err := rfl
@[simp] theorem State.withFetchWord_pix (s : State) (nbits w : Nat) : (s.withFetchWord nbits w).pix = s.pix := rfl
@[simp] theorem State.withFetchWord_pkd (s : State) (nbits w : Nat) : (s.withFetchWord nbits w).pkd = s.pkd := rfl
@[simp] theorem State.withFetchWord_gbytes (s : State) (nbits w : Nat) : (s.withFetchWord nbits w).gbytes = s.gbytes := rfl
@[simp] theorem State.withFetchWord_goffs (s : State) (nbits w : Nat) : (s.withFetchWord nbits w).goffs = s.goffs := rfl
@[simp] theorem State.withFetchWord_charset (s : State) (nbits w : Nat) : (s.withFetchWord nbits w).charset = s.charset := rfl
@[simp] theorem State.withFetchWord_cmaptab (s : State) (nbits w : Nat) : (s.withFetchWord nbits w).cmaptab = s.cmaptab := rfl
@[simp] theorem State.withFetchWord_epoch (s : State) (nbits w : Nat) : (s.withFetchWord nbits w).epoch = s.epoch := rfl
@[simp] theorem State.withFetchWord_inbox (s : State) (nbits w : Nat) : (s.withFetchWord nbits w).inbox = .write (.reg Reg.cmd.number) (w % 2 ^ nbits) :: s.inbox := rfl
@[simp] theorem State.withFetchWord_replies (s : State) (nbits w : Nat) : (s.withFetchWord nbits w).replies = s.replies := rfl

/-! ## `s.setPix a v` -/

@[simp] theorem State.setPix_cin (s : State) (a : Nat) (v : Byte) : (s.setPix a v).cin = s.cin := rfl
@[simp] theorem State.setPix_pb (s : State) (a : Nat) (v : Byte) : (s.setPix a v).pb = s.pb := rfl
@[simp] theorem State.setPix_cout (s : State) (a : Nat) (v : Byte) : (s.setPix a v).cout = s.cout := rfl
@[simp] theorem State.setPix_rsel (s : State) (a : Nat) (v : Byte) : (s.setPix a v).rsel = s.rsel := rfl
@[simp] theorem State.setPix_thresh (s : State) (a : Nat) (v : Byte) : (s.setPix a v).thresh = s.thresh := rfl
@[simp] theorem State.setPix_width (s : State) (a : Nat) (v : Byte) : (s.setPix a v).width = s.width := rfl
@[simp] theorem State.setPix_height (s : State) (a : Nat) (v : Byte) : (s.setPix a v).height = s.height := rfl
@[simp] theorem State.setPix_len (s : State) (a : Nat) (v : Byte) : (s.setPix a v).len = s.len := rfl
@[simp] theorem State.setPix_cslen (s : State) (a : Nat) (v : Byte) : (s.setPix a v).cslen = s.cslen := rfl
@[simp] theorem State.setPix_gbcnt (s : State) (a : Nat) (v : Byte) : (s.setPix a v).gbcnt = s.gbcnt := rfl
@[simp] theorem State.setPix_gocnt (s : State) (a : Nat) (v : Byte) : (s.setPix a v).gocnt = s.gocnt := rfl
@[simp] theorem State.setPix_halt (s : State) (a : Nat) (v : Byte) : (s.setPix a v).halt = s.halt := rfl
@[simp] theorem State.setPix_gwarn (s : State) (a : Nat) (v : Byte) : (s.setPix a v).gwarn = s.gwarn := rfl
@[simp] theorem State.setPix_err (s : State) (a : Nat) (v : Byte) : (s.setPix a v).err = s.err := rfl
@[simp] theorem State.setPix_pix (s : State) (a : Nat) (v : Byte) : (s.setPix a v).pix = s.pix.write a v := rfl
@[simp] theorem State.setPix_pkd (s : State) (a : Nat) (v : Byte) : (s.setPix a v).pkd = s.pkd := rfl
@[simp] theorem State.setPix_gbytes (s : State) (a : Nat) (v : Byte) : (s.setPix a v).gbytes = s.gbytes := rfl
@[simp] theorem State.setPix_goffs (s : State) (a : Nat) (v : Byte) : (s.setPix a v).goffs = s.goffs := rfl
@[simp] theorem State.setPix_charset (s : State) (a : Nat) (v : Byte) : (s.setPix a v).charset = s.charset := rfl
@[simp] theorem State.setPix_cmaptab (s : State) (a : Nat) (v : Byte) : (s.setPix a v).cmaptab = s.cmaptab := rfl
@[simp] theorem State.setPix_epoch (s : State) (a : Nat) (v : Byte) : (s.setPix a v).epoch = s.epoch := rfl
@[simp] theorem State.setPix_inbox (s : State) (a : Nat) (v : Byte) : (s.setPix a v).inbox = s.inbox := rfl
@[simp] theorem State.setPix_replies (s : State) (a : Nat) (v : Byte) : (s.setPix a v).replies = s.replies := rfl

/-! ## `s.setPkd a v` -/

@[simp] theorem State.setPkd_cin (s : State) (a : Nat) (v : Byte) : (s.setPkd a v).cin = s.cin := rfl
@[simp] theorem State.setPkd_pb (s : State) (a : Nat) (v : Byte) : (s.setPkd a v).pb = s.pb := rfl
@[simp] theorem State.setPkd_cout (s : State) (a : Nat) (v : Byte) : (s.setPkd a v).cout = s.cout := rfl
@[simp] theorem State.setPkd_rsel (s : State) (a : Nat) (v : Byte) : (s.setPkd a v).rsel = s.rsel := rfl
@[simp] theorem State.setPkd_thresh (s : State) (a : Nat) (v : Byte) : (s.setPkd a v).thresh = s.thresh := rfl
@[simp] theorem State.setPkd_width (s : State) (a : Nat) (v : Byte) : (s.setPkd a v).width = s.width := rfl
@[simp] theorem State.setPkd_height (s : State) (a : Nat) (v : Byte) : (s.setPkd a v).height = s.height := rfl
@[simp] theorem State.setPkd_len (s : State) (a : Nat) (v : Byte) : (s.setPkd a v).len = s.len := rfl
@[simp] theorem State.setPkd_cslen (s : State) (a : Nat) (v : Byte) : (s.setPkd a v).cslen = s.cslen := rfl
@[simp] theorem State.setPkd_gbcnt (s : State) (a : Nat) (v : Byte) : (s.setPkd a v).gbcnt = s.gbcnt := rfl
@[simp] theorem State.setPkd_gocnt (s : State) (a : Nat) (v : Byte) : (s.setPkd a v).gocnt = s.gocnt := rfl
@[simp] theorem State.setPkd_halt (s : State) (a : Nat) (v : Byte) : (s.setPkd a v).halt = s.halt := rfl
@[simp] theorem State.setPkd_gwarn (s : State) (a : Nat) (v : Byte) : (s.setPkd a v).gwarn = s.gwarn := rfl
@[simp] theorem State.setPkd_err (s : State) (a : Nat) (v : Byte) : (s.setPkd a v).err = s.err := rfl
@[simp] theorem State.setPkd_pix (s : State) (a : Nat) (v : Byte) : (s.setPkd a v).pix = s.pix := rfl
@[simp] theorem State.setPkd_pkd (s : State) (a : Nat) (v : Byte) : (s.setPkd a v).pkd = s.pkd.write a v := rfl
@[simp] theorem State.setPkd_gbytes (s : State) (a : Nat) (v : Byte) : (s.setPkd a v).gbytes = s.gbytes := rfl
@[simp] theorem State.setPkd_goffs (s : State) (a : Nat) (v : Byte) : (s.setPkd a v).goffs = s.goffs := rfl
@[simp] theorem State.setPkd_charset (s : State) (a : Nat) (v : Byte) : (s.setPkd a v).charset = s.charset := rfl
@[simp] theorem State.setPkd_cmaptab (s : State) (a : Nat) (v : Byte) : (s.setPkd a v).cmaptab = s.cmaptab := rfl
@[simp] theorem State.setPkd_epoch (s : State) (a : Nat) (v : Byte) : (s.setPkd a v).epoch = s.epoch := rfl
@[simp] theorem State.setPkd_inbox (s : State) (a : Nat) (v : Byte) : (s.setPkd a v).inbox = s.inbox := rfl
@[simp] theorem State.setPkd_replies (s : State) (a : Nat) (v : Byte) : (s.setPkd a v).replies = s.replies := rfl

/-! ## `s.setGbytes a v` -/

@[simp] theorem State.setGbytes_cin (s : State) (a : Nat) (v : Byte) : (s.setGbytes a v).cin = s.cin := rfl
@[simp] theorem State.setGbytes_pb (s : State) (a : Nat) (v : Byte) : (s.setGbytes a v).pb = s.pb := rfl
@[simp] theorem State.setGbytes_cout (s : State) (a : Nat) (v : Byte) : (s.setGbytes a v).cout = s.cout := rfl
@[simp] theorem State.setGbytes_rsel (s : State) (a : Nat) (v : Byte) : (s.setGbytes a v).rsel = s.rsel := rfl
@[simp] theorem State.setGbytes_thresh (s : State) (a : Nat) (v : Byte) : (s.setGbytes a v).thresh = s.thresh := rfl
@[simp] theorem State.setGbytes_width (s : State) (a : Nat) (v : Byte) : (s.setGbytes a v).width = s.width := rfl
@[simp] theorem State.setGbytes_height (s : State) (a : Nat) (v : Byte) : (s.setGbytes a v).height = s.height := rfl
@[simp] theorem State.setGbytes_len (s : State) (a : Nat) (v : Byte) : (s.setGbytes a v).len = s.len := rfl
@[simp] theorem State.setGbytes_cslen (s : State) (a : Nat) (v : Byte) : (s.setGbytes a v).cslen = s.cslen := rfl
@[simp] theorem State.setGbytes_gbcnt (s : State) (a : Nat) (v : Byte) : (s.setGbytes a v).gbcnt = s.gbcnt := rfl
@[simp] theorem State.setGbytes_gocnt (s : State) (a : Nat) (v : Byte) : (s.setGbytes a v).gocnt = s.gocnt := rfl
@[simp] theorem State.setGbytes_halt (s : State) (a : Nat) (v : Byte) : (s.setGbytes a v).halt = s.halt := rfl
@[simp] theorem State.setGbytes_gwarn (s : State) (a : Nat) (v : Byte) : (s.setGbytes a v).gwarn = s.gwarn := rfl
@[simp] theorem State.setGbytes_err (s : State) (a : Nat) (v : Byte) : (s.setGbytes a v).err = s.err := rfl
@[simp] theorem State.setGbytes_pix (s : State) (a : Nat) (v : Byte) : (s.setGbytes a v).pix = s.pix := rfl
@[simp] theorem State.setGbytes_pkd (s : State) (a : Nat) (v : Byte) : (s.setGbytes a v).pkd = s.pkd := rfl
@[simp] theorem State.setGbytes_gbytes (s : State) (a : Nat) (v : Byte) : (s.setGbytes a v).gbytes = s.gbytes.write a v := rfl
@[simp] theorem State.setGbytes_goffs (s : State) (a : Nat) (v : Byte) : (s.setGbytes a v).goffs = s.goffs := rfl
@[simp] theorem State.setGbytes_charset (s : State) (a : Nat) (v : Byte) : (s.setGbytes a v).charset = s.charset := rfl
@[simp] theorem State.setGbytes_cmaptab (s : State) (a : Nat) (v : Byte) : (s.setGbytes a v).cmaptab = s.cmaptab := rfl
@[simp] theorem State.setGbytes_epoch (s : State) (a : Nat) (v : Byte) : (s.setGbytes a v).epoch = s.epoch := rfl
@[simp] theorem State.setGbytes_inbox (s : State) (a : Nat) (v : Byte) : (s.setGbytes a v).inbox = s.inbox := rfl
@[simp] theorem State.setGbytes_replies (s : State) (a : Nat) (v : Byte) : (s.setGbytes a v).replies = s.replies := rfl

/-! ## `s.setGoffs a v` -/

@[simp] theorem State.setGoffs_cin (s : State) (a : Nat) (v : Half) : (s.setGoffs a v).cin = s.cin := rfl
@[simp] theorem State.setGoffs_pb (s : State) (a : Nat) (v : Half) : (s.setGoffs a v).pb = s.pb := rfl
@[simp] theorem State.setGoffs_cout (s : State) (a : Nat) (v : Half) : (s.setGoffs a v).cout = s.cout := rfl
@[simp] theorem State.setGoffs_rsel (s : State) (a : Nat) (v : Half) : (s.setGoffs a v).rsel = s.rsel := rfl
@[simp] theorem State.setGoffs_thresh (s : State) (a : Nat) (v : Half) : (s.setGoffs a v).thresh = s.thresh := rfl
@[simp] theorem State.setGoffs_width (s : State) (a : Nat) (v : Half) : (s.setGoffs a v).width = s.width := rfl
@[simp] theorem State.setGoffs_height (s : State) (a : Nat) (v : Half) : (s.setGoffs a v).height = s.height := rfl
@[simp] theorem State.setGoffs_len (s : State) (a : Nat) (v : Half) : (s.setGoffs a v).len = s.len := rfl
@[simp] theorem State.setGoffs_cslen (s : State) (a : Nat) (v : Half) : (s.setGoffs a v).cslen = s.cslen := rfl
@[simp] theorem State.setGoffs_gbcnt (s : State) (a : Nat) (v : Half) : (s.setGoffs a v).gbcnt = s.gbcnt := rfl
@[simp] theorem State.setGoffs_gocnt (s : State) (a : Nat) (v : Half) : (s.setGoffs a v).gocnt = s.gocnt := rfl
@[simp] theorem State.setGoffs_halt (s : State) (a : Nat) (v : Half) : (s.setGoffs a v).halt = s.halt := rfl
@[simp] theorem State.setGoffs_gwarn (s : State) (a : Nat) (v : Half) : (s.setGoffs a v).gwarn = s.gwarn := rfl
@[simp] theorem State.setGoffs_err (s : State) (a : Nat) (v : Half) : (s.setGoffs a v).err = s.err := rfl
@[simp] theorem State.setGoffs_pix (s : State) (a : Nat) (v : Half) : (s.setGoffs a v).pix = s.pix := rfl
@[simp] theorem State.setGoffs_pkd (s : State) (a : Nat) (v : Half) : (s.setGoffs a v).pkd = s.pkd := rfl
@[simp] theorem State.setGoffs_gbytes (s : State) (a : Nat) (v : Half) : (s.setGoffs a v).gbytes = s.gbytes := rfl
@[simp] theorem State.setGoffs_goffs (s : State) (a : Nat) (v : Half) : (s.setGoffs a v).goffs = s.goffs.write a v := rfl
@[simp] theorem State.setGoffs_charset (s : State) (a : Nat) (v : Half) : (s.setGoffs a v).charset = s.charset := rfl
@[simp] theorem State.setGoffs_cmaptab (s : State) (a : Nat) (v : Half) : (s.setGoffs a v).cmaptab = s.cmaptab := rfl
@[simp] theorem State.setGoffs_epoch (s : State) (a : Nat) (v : Half) : (s.setGoffs a v).epoch = s.epoch := rfl
@[simp] theorem State.setGoffs_inbox (s : State) (a : Nat) (v : Half) : (s.setGoffs a v).inbox = s.inbox := rfl
@[simp] theorem State.setGoffs_replies (s : State) (a : Nat) (v : Half) : (s.setGoffs a v).replies = s.replies := rfl

/-! ## `s.setCharset a v` -/

@[simp] theorem State.setCharset_cin (s : State) (a : Nat) (v : Byte) : (s.setCharset a v).cin = s.cin := rfl
@[simp] theorem State.setCharset_pb (s : State) (a : Nat) (v : Byte) : (s.setCharset a v).pb = s.pb := rfl
@[simp] theorem State.setCharset_cout (s : State) (a : Nat) (v : Byte) : (s.setCharset a v).cout = s.cout := rfl
@[simp] theorem State.setCharset_rsel (s : State) (a : Nat) (v : Byte) : (s.setCharset a v).rsel = s.rsel := rfl
@[simp] theorem State.setCharset_thresh (s : State) (a : Nat) (v : Byte) : (s.setCharset a v).thresh = s.thresh := rfl
@[simp] theorem State.setCharset_width (s : State) (a : Nat) (v : Byte) : (s.setCharset a v).width = s.width := rfl
@[simp] theorem State.setCharset_height (s : State) (a : Nat) (v : Byte) : (s.setCharset a v).height = s.height := rfl
@[simp] theorem State.setCharset_len (s : State) (a : Nat) (v : Byte) : (s.setCharset a v).len = s.len := rfl
@[simp] theorem State.setCharset_cslen (s : State) (a : Nat) (v : Byte) : (s.setCharset a v).cslen = s.cslen := rfl
@[simp] theorem State.setCharset_gbcnt (s : State) (a : Nat) (v : Byte) : (s.setCharset a v).gbcnt = s.gbcnt := rfl
@[simp] theorem State.setCharset_gocnt (s : State) (a : Nat) (v : Byte) : (s.setCharset a v).gocnt = s.gocnt := rfl
@[simp] theorem State.setCharset_halt (s : State) (a : Nat) (v : Byte) : (s.setCharset a v).halt = s.halt := rfl
@[simp] theorem State.setCharset_gwarn (s : State) (a : Nat) (v : Byte) : (s.setCharset a v).gwarn = s.gwarn := rfl
@[simp] theorem State.setCharset_err (s : State) (a : Nat) (v : Byte) : (s.setCharset a v).err = s.err := rfl
@[simp] theorem State.setCharset_pix (s : State) (a : Nat) (v : Byte) : (s.setCharset a v).pix = s.pix := rfl
@[simp] theorem State.setCharset_pkd (s : State) (a : Nat) (v : Byte) : (s.setCharset a v).pkd = s.pkd := rfl
@[simp] theorem State.setCharset_gbytes (s : State) (a : Nat) (v : Byte) : (s.setCharset a v).gbytes = s.gbytes := rfl
@[simp] theorem State.setCharset_goffs (s : State) (a : Nat) (v : Byte) : (s.setCharset a v).goffs = s.goffs := rfl
@[simp] theorem State.setCharset_charset (s : State) (a : Nat) (v : Byte) : (s.setCharset a v).charset = s.charset.write a v := rfl
@[simp] theorem State.setCharset_cmaptab (s : State) (a : Nat) (v : Byte) : (s.setCharset a v).cmaptab = s.cmaptab := rfl
@[simp] theorem State.setCharset_epoch (s : State) (a : Nat) (v : Byte) : (s.setCharset a v).epoch = s.epoch := rfl
@[simp] theorem State.setCharset_inbox (s : State) (a : Nat) (v : Byte) : (s.setCharset a v).inbox = s.inbox := rfl
@[simp] theorem State.setCharset_replies (s : State) (a : Nat) (v : Byte) : (s.setCharset a v).replies = s.replies := rfl

/-! ## `s.setCmaptab a v` -/

@[simp] theorem State.setCmaptab_cin (s : State) (a : Nat) (v : Half) : (s.setCmaptab a v).cin = s.cin := rfl
@[simp] theorem State.setCmaptab_pb (s : State) (a : Nat) (v : Half) : (s.setCmaptab a v).pb = s.pb := rfl
@[simp] theorem State.setCmaptab_cout (s : State) (a : Nat) (v : Half) : (s.setCmaptab a v).cout = s.cout := rfl
@[simp] theorem State.setCmaptab_rsel (s : State) (a : Nat) (v : Half) : (s.setCmaptab a v).rsel = s.rsel := rfl
@[simp] theorem State.setCmaptab_thresh (s : State) (a : Nat) (v : Half) : (s.setCmaptab a v).thresh = s.thresh := rfl
@[simp] theorem State.setCmaptab_width (s : State) (a : Nat) (v : Half) : (s.setCmaptab a v).width = s.width := rfl
@[simp] theorem State.setCmaptab_height (s : State) (a : Nat) (v : Half) : (s.setCmaptab a v).height = s.height := rfl
@[simp] theorem State.setCmaptab_len (s : State) (a : Nat) (v : Half) : (s.setCmaptab a v).len = s.len := rfl
@[simp] theorem State.setCmaptab_cslen (s : State) (a : Nat) (v : Half) : (s.setCmaptab a v).cslen = s.cslen := rfl
@[simp] theorem State.setCmaptab_gbcnt (s : State) (a : Nat) (v : Half) : (s.setCmaptab a v).gbcnt = s.gbcnt := rfl
@[simp] theorem State.setCmaptab_gocnt (s : State) (a : Nat) (v : Half) : (s.setCmaptab a v).gocnt = s.gocnt := rfl
@[simp] theorem State.setCmaptab_halt (s : State) (a : Nat) (v : Half) : (s.setCmaptab a v).halt = s.halt := rfl
@[simp] theorem State.setCmaptab_gwarn (s : State) (a : Nat) (v : Half) : (s.setCmaptab a v).gwarn = s.gwarn := rfl
@[simp] theorem State.setCmaptab_err (s : State) (a : Nat) (v : Half) : (s.setCmaptab a v).err = s.err := rfl
@[simp] theorem State.setCmaptab_pix (s : State) (a : Nat) (v : Half) : (s.setCmaptab a v).pix = s.pix := rfl
@[simp] theorem State.setCmaptab_pkd (s : State) (a : Nat) (v : Half) : (s.setCmaptab a v).pkd = s.pkd := rfl
@[simp] theorem State.setCmaptab_gbytes (s : State) (a : Nat) (v : Half) : (s.setCmaptab a v).gbytes = s.gbytes := rfl
@[simp] theorem State.setCmaptab_goffs (s : State) (a : Nat) (v : Half) : (s.setCmaptab a v).goffs = s.goffs := rfl
@[simp] theorem State.setCmaptab_charset (s : State) (a : Nat) (v : Half) : (s.setCmaptab a v).charset = s.charset := rfl
@[simp] theorem State.setCmaptab_cmaptab (s : State) (a : Nat) (v : Half) : (s.setCmaptab a v).cmaptab = s.cmaptab.write a v := rfl
@[simp] theorem State.setCmaptab_epoch (s : State) (a : Nat) (v : Half) : (s.setCmaptab a v).epoch = s.epoch := rfl
@[simp] theorem State.setCmaptab_inbox (s : State) (a : Nat) (v : Half) : (s.setCmaptab a v).inbox = s.inbox := rfl
@[simp] theorem State.setCmaptab_replies (s : State) (a : Nat) (v : Half) : (s.setCmaptab a v).replies = s.replies := rfl

/-! ## The value a memory element reads as depends on its memory and the epoch alone -/

theorem State.pixAt_congr {s t : State} (hm : t.pix = s.pix) (he : t.epoch = s.epoch) (a : Nat) :
    t.pixAt a = s.pixAt a := by
  simp only [State.pixAt, hm, he]

theorem State.pkdAt_congr {s t : State} (hm : t.pkd = s.pkd) (he : t.epoch = s.epoch) (a : Nat) :
    t.pkdAt a = s.pkdAt a := by
  simp only [State.pkdAt, hm, he]

theorem State.gbytesAt_congr {s t : State} (hm : t.gbytes = s.gbytes) (he : t.epoch = s.epoch) (a : Nat) :
    t.gbytesAt a = s.gbytesAt a := by
  simp only [State.gbytesAt, hm, he]

theorem State.goffsAt_congr {s t : State} (hm : t.goffs = s.goffs) (he : t.epoch = s.epoch) (a : Nat) :
    t.goffsAt a = s.goffsAt a := by
  simp only [State.goffsAt, hm, he]

theorem State.charsetAt_congr {s t : State} (hm : t.charset = s.charset) (he : t.epoch = s.epoch) (a : Nat) :
    t.charsetAt a = s.charsetAt a := by
  simp only [State.charsetAt, hm, he]

theorem State.cmaptabAt_congr {s t : State} (hm : t.cmaptab = s.cmaptab) (he : t.epoch = s.epoch) (a : Nat) :
    t.cmaptabAt a = s.cmaptabAt a := by
  simp only [State.cmaptabAt, hm, he]

/-- The outputs of the mux depend on `PB` and `RSEL` alone (spec/10_state.md R15). -/
theorem State.sout_congr {s t : State} (hp : t.pb = s.pb) (hr : t.rsel = s.rsel) : t.sout = s.sout := by
  simp only [State.sout, hp, hr]

/-- Fault entry keeps the block but for `STATUS`. -/
theorem State.raise_eq (s : State) (c : Cause) : s.raise c = { s with err := c.code, halt := true } := rfl

/-- A fault code is one of 1 to 5 (spec/60_exceptions.md R85). -/
theorem Cause.code_range (c : Cause) : 1 ≤ c.code.toNat ∧ c.code.toNat ≤ 5 := by cases c <;> decide

theorem Cause.code_ne_zero (c : Cause) : c.code ≠ 0 := by cases c <;> decide

theorem Cause.code_injective {c d : Cause} (h : c.code = d.code) : c = d := by
  revert h; cases c <;> cases d <;> decide

end Sys2Proof.Machine
end

