-- ==== Sys2Proof/Laws/Operands.lean ====
section
/-! SUPPORT. What the pure functions of the units compute, bit by bit. -/

namespace Sys2Proof.Machine

@[simp] theorem getLsbD_bitAt (i : Nat) (c : Bool) (k : Nat) :
    (bitAt i c).getLsbD k = (decide (k < 8) && decide (i = k) && c) := by
  by_cases h : i = k
  · subst h; cases c <;> simp [bitAt, BitVec.getLsbD_twoPow]
  · cases c <;> simp [bitAt, BitVec.getLsbD_twoPow, h]

/-- Bit `k` of `pack a`, at every `k` (spec/40_bitcolumn.md R57). -/
theorem getLsbD_pack_eq (a : Nat → Bool) (k : Nat) : (pack a).getLsbD k = (decide (k < 8) && a k) := by
  rcases Nat.lt_or_ge k 8 with hk | hk
  · simp only [pack, List.range, List.range.loop, List.foldl, BitVec.getLsbD_or, getLsbD_bitAt]
    interval_cases k <;> simp
  · rw [BitVec.getLsbD_of_ge _ _ hk]; simp; omega

/-- `pack` looks at rows 0..7 alone. -/
theorem pack_congr {a a' : Nat → Bool} (h : ∀ i, i < 8 → a i = a' i) : pack a = pack a' := by
  apply BitVec.eq_of_getLsbD_eq
  intro i hi
  rw [getLsbD_pack_eq, getLsbD_pack_eq, h i hi]

/-- The packed bits of a byte are the byte. -/
theorem pack_bits (b : Byte) : (pack fun i => b.getLsbD i) = b := by
  apply BitVec.eq_of_getLsbD_eq
  intro i hi
  rw [getLsbD_pack_eq, decide_eq_true hi, Bool.true_and]

/-- The darkness compare on numbers (spec/30_encoding.md R53 (b)). -/
theorem isDark_eq (t p : Byte) : isDark t p = decide (p.toNat < t.toNat) := rfl

theorem unpack_eq (b : Byte) (i : Nat) : unpack b i = if b.getLsbD i then 0xFF else 0x00 := rfl

theorem unpack_toNat_lt (b : Byte) (i t : Nat) (h0 : 0 < t) (ht : t ≤ 255) :
    (unpack b i).toNat < t ↔ b.getLsbD i = false := by
  rw [unpack_eq]; split <;> simp_all

/-- A band and a column from an index of the frame: `k / 128` and `k mod 128`. -/
theorem band_col_div (band : Nat) {col : Nat} (h : col < 128) :
    (band * 128 + col) / 128 = band ∧ (band * 128 + col) % 128 = col := by omega

/-- Bit `i` of the byte of band `band`, column `col` (spec/41_framecodec.md R66). -/
theorem getLsbD_encodeFrame (P : Nat → Nat → Byte) (t : Byte) (band : Nat) {col i : Nat} (hc : col < 128)
    (hi : i < 8) :
    (encodeFrame P t (band * 128 + col)).getLsbD i = decide ((P (8 * band + i) col).toNat < t.toNat) := by
  obtain ⟨h1, h2⟩ := band_col_div band hc
  rw [encodeFrame, getLsbD_pack_eq]
  simp [hi, h1, h2, isDark_eq]

/-- Cell of row `8*band + i`, column `col` of the decoded frame (spec/41_framecodec.md R68). -/
theorem decodeFrame_strip (K : Nat → Byte) (band col : Nat) {i : Nat} (hi : i < 8) :
    decodeFrame K (8 * band + i) col = unpack (K (band * 128 + col)) i := by
  simp only [decodeFrame, Config.bandH, Config.cols]
  rw [show (8 * band + i) / 8 = band by omega, show (8 * band + i) % 8 = i by omega]

/-! ## One column of the scan (spec/42_glyph.md R75) -/

theorem Scan.column_zero (sc : Scan) : sc.column 0 = sc.close := rfl

theorem Scan.column_nonzero (sc : Scan) {b : Byte} (h : b ≠ 0) :
    sc.column b = ⟨sc.bytes ++ [b &&& 0xFE], sc.offsets⟩ := by
  rw [Scan.column, if_neg h]

@[simp] theorem Scan.close_bytes (sc : Scan) : sc.close.bytes = sc.bytes := by
  unfold Scan.close; split <;> rfl

theorem Scan.close_of_eq (sc : Scan) (h : sc.bytes.length = sc.lastOffset) : sc.close = sc := if_pos h

theorem Scan.close_of_ne (sc : Scan) (h : sc.bytes.length ≠ sc.lastOffset) :
    sc.close = ⟨sc.bytes, sc.offsets ++ [sc.bytes.length]⟩ := if_neg h

/-- After a close the last offset is the emitted-byte count. -/
theorem Scan.close_lastOffset (sc : Scan) : sc.close.lastOffset = sc.bytes.length := by
  unfold Scan.close
  split
  · rename_i h; exact h.symm
  · simp [Scan.lastOffset]

end Sys2Proof.Machine
end

