-- ==== Sys2Proof/Laws/Exec.lean ====
section
/-! SUPPORT. Everything each shared operation and each meaning can do, said once. -/

namespace Sys2Proof.Machine

/-! ## The meanings -/

theorem execPackc_eq (s : State) : execPackc s = .next { s with pb := s.cin } := by
  rw [execPackc, pack_bits]

theorem execFenc_of_dims {s : State} (hw : s.width.toNat = 128) (hh : s.height.toNat = 64) :
    execFenc s = .next { s with
      pkd := s.pkd.writeTable ((List.range 1024).map (encodeFrame s.frame s.thresh)), len := 1024 } := by
  rw [execFenc, if_neg (by simp [hw]), if_neg (by simp [hh])]; rfl

theorem execFenc_of_wrong_dims {s : State} (h : s.width.toNat ≠ 128 ∨ s.height.toNat ≠ 64) :
    execFenc s = .next (s.raise .dimension) := by
  rw [execFenc]
  split_ifs with h1 h2
  · rfl
  · rfl
  · simp only [Config.cols, Config.rows] at h1 h2; omega

theorem execFdec_of_len {s : State} (h : s.len.toNat = 1024) :
    execFdec s = .next { s with
      pix := s.pix.writeTable ((List.range 8192).map fun a => decodeFrame s.pkdAt (a / 128) (a % 128)),
      height := 64, width := 128 } := by
  rw [execFdec, if_neg (by simp [h])]; rfl

theorem execFdec_of_wrong_len {s : State} (h : s.len.toNat ≠ 1024) :
    execFdec s = .next (s.raise .sizeMismatch) := by
  rw [execFdec, if_pos h]

/-- The state a scan that does not fault leaves (spec/42_glyph.md R76). -/
theorem execGscan_of_sheet {s : State} (hh : s.height.toNat = 8) (hw : s.width.toNat ≤ 1024) :
    execGscan s = .next { s with
      gbytes := s.gbytes.writeTable s.sheetScan.bytes,
      goffs := s.goffs.writeTable (s.sheetScan.offsets.map (BitVec.ofNat 16)),
      gbcnt := BitVec.ofNat 16 s.sheetScan.bytes.length,
      gocnt := BitVec.ofNat 16 s.sheetScan.offsets.length,
      gwarn := glyphWarn s.cslen s.sheetScan.offsets.length } := by
  rw [execGscan, if_neg (by simp [hh]), if_neg (by simp only [Config.gwMax]; omega)]

theorem execGscan_of_wrong_height {s : State} (h : s.height.toNat ≠ 8) :
    execGscan s = .next (s.raise .glyphHeight) := by
  rw [execGscan, if_pos h]

theorem execGscan_of_wide_sheet {s : State} (hh : s.height.toNat = 8) (hw : 1024 < s.width.toNat) :
    execGscan s = .next (s.raise .capacity) := by
  rw [execGscan, if_neg (by simp [hh]), if_pos hw]

/-- What a command can do: every meaning's outcomes, one line each. -/
theorem exec_cases {i : Instr} {s t : State} (h : exec i s = .next t) :
    (i = .nop ∧ t = s) ∨ (i = .packc ∧ t = { s with pb := s.cin }) ∨
    (i = .unpkc ∧ t = { s with cout := Vector.ofFn fun i => unpack s.pb i.val }) ∨
    (∃ r, i = .selr r ∧ t = { s with rsel := BitVec.ofNat 3 r }) ∨
    (i = .sern ∧ t = { s with rsel := s.rsel + 1 }) ∨
    (i = .fenc ∧ (s.width.toNat ≠ 128 ∨ s.height.toNat ≠ 64) ∧ t = s.raise .dimension) ∨
    (i = .fenc ∧ s.width.toNat = 128 ∧ s.height.toNat = 64 ∧ t = { s with
      pkd := s.pkd.writeTable ((List.range 1024).map (encodeFrame s.frame s.thresh)), len := 1024 }) ∨
    (i = .fdec ∧ s.len.toNat ≠ 1024 ∧ t = s.raise .sizeMismatch) ∨
    (i = .fdec ∧ s.len.toNat = 1024 ∧ t = { s with
      pix := s.pix.writeTable ((List.range 8192).map fun a => decodeFrame s.pkdAt (a / 128) (a % 128)),
      height := 64, width := 128 }) ∨
    (i = .gscan ∧ s.height.toNat ≠ 8 ∧ t = s.raise .glyphHeight) ∨
    (i = .gscan ∧ s.height.toNat = 8 ∧ 1024 < s.width.toNat ∧ t = s.raise .capacity) ∨
    (i = .gscan ∧ s.height.toNat = 8 ∧ s.width.toNat ≤ 1024 ∧ t = { s with
      gbytes := s.gbytes.writeTable s.sheetScan.bytes,
      goffs := s.goffs.writeTable (s.sheetScan.offsets.map (BitVec.ofNat 16)),
      gbcnt := BitVec.ofNat 16 s.sheetScan.bytes.length,
      gocnt := BitVec.ofNat 16 s.sheetScan.offsets.length,
      gwarn := glyphWarn s.cslen s.sheetScan.offsets.length }) ∨
    (i = .cmap ∧ t = { s with
      cmaptab := s.cmaptab.writeTable ((List.range 256).map (charmapEntry s.charString)) }) := by
  cases i with
  | nop => simp only [exec, execNop, Host.Outcome.next.injEq] at h; simp [h.symm]
  | packc => simp only [exec, execPackc_eq, Host.Outcome.next.injEq] at h; simp [h.symm]
  | unpkc => simp only [exec, execUnpkc, Host.Outcome.next.injEq] at h; simp [h.symm]
  | selr r => simp only [exec, execSelr, rowSelect, Host.Outcome.next.injEq] at h; simp [h.symm]
  | sern => simp only [exec, execSern, Host.Outcome.next.injEq] at h; simp [h.symm]
  | fenc =>
    by_cases hd : s.width.toNat = 128 ∧ s.height.toNat = 64
    · simp only [exec, execFenc_of_dims hd.1 hd.2, Host.Outcome.next.injEq] at h; simp [h.symm, hd]
    · have hd' : s.width.toNat ≠ 128 ∨ s.height.toNat ≠ 64 := by omega
      simp only [exec, execFenc_of_wrong_dims hd', Host.Outcome.next.injEq] at h; simp [h.symm, hd']
  | fdec =>
    by_cases hl : s.len.toNat = 1024
    · simp only [exec, execFdec_of_len hl, Host.Outcome.next.injEq] at h; simp [h.symm, hl]
    · simp only [exec, execFdec_of_wrong_len hl, Host.Outcome.next.injEq] at h; simp [h.symm, hl]
  | gscan =>
    by_cases hh : s.height.toNat = 8
    · by_cases hw : s.width.toNat ≤ 1024
      · simp only [exec, execGscan_of_sheet hh hw, Host.Outcome.next.injEq] at h; simp [h.symm, hh, hw]
      · have hw' : 1024 < s.width.toNat := by omega
        simp only [exec, execGscan_of_wide_sheet hh hw', Host.Outcome.next.injEq] at h
        simp [h.symm, hh, hw']
    · simp only [exec, execGscan_of_wrong_height hh, Host.Outcome.next.injEq] at h; simp [h.symm, hh]
  | cmap => simp only [exec, execCmap, Host.Outcome.next.injEq] at h; simp [h.symm]

/-! ## Elements after a table write -/

theorem State.pixAt_of_table {s t : State} {vals : List Byte} (h : t.pix = s.pix.writeTable vals) {a : Nat}
    (ha : a < vals.length) : t.pixAt a = vals[a] := by
  rw [State.pixAt, h, Memory.read_writeTable_of_lt _ ha, Option.getD_some]

theorem State.pixAt_beyond_table {s t : State} {vals : List Byte} (h : t.pix = s.pix.writeTable vals)
    (he : t.epoch = s.epoch) {a : Nat} (ha : vals.length ≤ a) : t.pixAt a = s.pixAt a := by
  rw [State.pixAt, State.pixAt, h, Memory.read_writeTable_of_ge _ ha, he]

theorem State.pkdAt_of_table {s t : State} {vals : List Byte} (h : t.pkd = s.pkd.writeTable vals) {a : Nat}
    (ha : a < vals.length) : t.pkdAt a = vals[a] := by
  rw [State.pkdAt, h, Memory.read_writeTable_of_lt _ ha, Option.getD_some]

theorem State.pkdAt_beyond_table {s t : State} {vals : List Byte} (h : t.pkd = s.pkd.writeTable vals)
    (he : t.epoch = s.epoch) {a : Nat} (ha : vals.length ≤ a) : t.pkdAt a = s.pkdAt a := by
  rw [State.pkdAt, State.pkdAt, h, Memory.read_writeTable_of_ge _ ha, he]

theorem State.gbytesAt_of_table {s t : State} {vals : List Byte} (h : t.gbytes = s.gbytes.writeTable vals) {a : Nat}
    (ha : a < vals.length) : t.gbytesAt a = vals[a] := by
  rw [State.gbytesAt, h, Memory.read_writeTable_of_lt _ ha, Option.getD_some]

theorem State.gbytesAt_beyond_table {s t : State} {vals : List Byte} (h : t.gbytes = s.gbytes.writeTable vals)
    (he : t.epoch = s.epoch) {a : Nat} (ha : vals.length ≤ a) : t.gbytesAt a = s.gbytesAt a := by
  rw [State.gbytesAt, State.gbytesAt, h, Memory.read_writeTable_of_ge _ ha, he]

theorem State.goffsAt_of_table {s t : State} {vals : List Half} (h : t.goffs = s.goffs.writeTable vals) {a : Nat}
    (ha : a < vals.length) : t.goffsAt a = vals[a] := by
  rw [State.goffsAt, h, Memory.read_writeTable_of_lt _ ha, Option.getD_some]

theorem State.goffsAt_beyond_table {s t : State} {vals : List Half} (h : t.goffs = s.goffs.writeTable vals)
    (he : t.epoch = s.epoch) {a : Nat} (ha : vals.length ≤ a) : t.goffsAt a = s.goffsAt a := by
  rw [State.goffsAt, State.goffsAt, h, Memory.read_writeTable_of_ge _ ha, he]

theorem State.cmaptabAt_of_table {s t : State} {vals : List Half} (h : t.cmaptab = s.cmaptab.writeTable vals) {a : Nat}
    (ha : a < vals.length) : t.cmaptabAt a = vals[a] := by
  rw [State.cmaptabAt, h, Memory.read_writeTable_of_lt _ ha, Option.getD_some]

theorem State.cmaptabAt_beyond_table {s t : State} {vals : List Half} (h : t.cmaptab = s.cmaptab.writeTable vals)
    (he : t.epoch = s.epoch) {a : Nat} (ha : vals.length ≤ a) : t.cmaptabAt a = s.cmaptabAt a := by
  rw [State.cmaptabAt, State.cmaptabAt, h, Memory.read_writeTable_of_ge _ ha, he]

/-! ## Host access -/

/-- Every number from 24 on is unimplemented (spec/10_state.md R23). -/
theorem Reg.ofNumber_of_ge {n : Nat} (h : 24 ≤ n) : Reg.ofNumber n = none := by
  unfold Reg.ofNumber
  split <;> first | omega | rfl

theorem Reg.ofNumber_number (r : Reg) : Reg.ofNumber r.number = some r := by
  cases r with
  | cout i => revert i; decide
  | _ => rfl

/-- A number stands for at most one register. -/
theorem Reg.number_of_ofNumber {n : Nat} {r : Reg} (h : Reg.ofNumber n = some r) : n = r.number := by
  revert h
  unfold Reg.ofNumber
  split <;> intro h <;> simp_all [Reg.number] <;> subst h <;> rfl

theorem hostWrite_halted {s : State} (h : s.halt = true) (l : Loc) (v : Nat) : hostWrite l v s = .next s := by
  simp only [hostWrite, h, if_true]

theorem hostWrite_cmd {s : State} (h : s.halt = false) (v : Nat) :
    hostWrite (.reg 0) v s = issue (BitVec.ofNat 8 v) s := by
  simp [hostWrite, h, Reg.ofNumber]

theorem hostWrite_reg {s : State} (h : s.halt = false) {n : Nat} {r : Reg} (hn : Reg.ofNumber n = some r)
    (hr : r ≠ .cmd) (v : Nat) : hostWrite (.reg n) v s = .next (s.writeReg r v) := by
  cases r <;> simp_all [hostWrite]

theorem hostWrite_unimplemented {n : Nat} (hn : Reg.ofNumber n = none) (v : Nat) (s : State) :
    hostWrite (.reg n) v s = .next s := by
  simp only [hostWrite, hn, ite_self]

theorem issue_of_ok {w : BitVec 8} {i : Instr} (h : decode w = .ok i) (s : State) : issue w s = exec i s := by
  rw [issue, h]

theorem issue_of_error {w : BitVec 8} {e : Reserved} (h : decode w = .error e) (s : State) :
    issue w s = .next (s.raise .illegalCommand) := by
  rw [issue, h]

/-- What a host write can do: nothing on a halted block; the issue of a command word; a register write; nothing on an
unimplemented number; a write of one memory element. -/
theorem hostWrite_cases {l : Loc} {v : Nat} {s t : State} (h : hostWrite l v s = .next t) :
    (s.halt = true ∧ t = s) ∨
    (s.halt = false ∧ l = .reg 0 ∧ issue (BitVec.ofNat 8 v) s = .next t) ∨
    (s.halt = false ∧ ∃ r, r ≠ .cmd ∧ l = .reg r.number ∧ t = s.writeReg r v) ∨
    (s.halt = false ∧ ∃ n, Reg.ofNumber n = none ∧ l = .reg n ∧ t = s) ∨
    (s.halt = false ∧
      ((∃ a, l = .pix a ∧ t = s.setPix a.toNat (BitVec.ofNat 8 v)) ∨
       (∃ a, l = .pkd a ∧ t = s.setPkd a.toNat (BitVec.ofNat 8 v)) ∨
       (∃ a, l = .gbytes a ∧ t = s.setGbytes a.toNat (BitVec.ofNat 8 v)) ∨
       (∃ a, l = .goffs a ∧ t = s.setGoffs a.toNat (BitVec.ofNat 16 v)) ∨
       (∃ a, l = .charset a ∧ t = s.setCharset a.toNat (BitVec.ofNat 8 v)) ∨
       (∃ a, l = .cmaptab a ∧ t = s.setCmaptab a.toNat (BitVec.ofNat 16 v)))) := by
  by_cases hh : s.halt = true
  · rw [hostWrite_halted hh, Host.Outcome.next.injEq] at h
    exact .inl ⟨hh, h.symm⟩
  · have hf : s.halt = false := by simpa using hh
    refine .inr ?_
    cases l with
    | reg n =>
      cases hr : Reg.ofNumber n with
      | none =>
        rw [hostWrite_unimplemented hr, Host.Outcome.next.injEq] at h
        exact .inr (.inr (.inl ⟨hf, n, hr, rfl, h.symm⟩))
      | some r =>
        by_cases hc : r = .cmd
        · have hn : n = 0 := by rw [Reg.number_of_ofNumber hr, hc]; rfl
          subst hn
          exact .inl ⟨hf, rfl, by rwa [hostWrite_cmd hf] at h⟩
        · rw [hostWrite_reg hf hr hc, Host.Outcome.next.injEq] at h
          exact .inr (.inl ⟨hf, r, hc, by rw [Reg.number_of_ofNumber hr], h.symm⟩)
    | _ a =>
      simp only [hostWrite, hf, Bool.false_eq_true, if_false, Host.Outcome.next.injEq] at h
      simp [hf, h.symm]

/-- What a host read returns does not depend on the host's own fields. -/
theorem hostRead_block (s : State) (l : Loc) : hostRead s.block l = hostRead s l := rfl

theorem hostRead_congr_block {s t : State} (h : t.block = s.block) (l : Loc) : hostRead t l = hostRead s l := by
  rw [← hostRead_block t, ← hostRead_block s, h]

/-! ## One step -/

theorem step_nil {s : State} (h : s.inbox = []) : step s = .next s := by
  rw [step, serveHost, h]

theorem step_cons {s : State} {x : HostStep} {rest : List HostStep} (h : s.inbox = x :: rest) :
    step s = hostStep x (s.setInbox rest) := by
  rw [step, serveHost, h]

/-- What a step can do: idle, or the host's next access on the state without it. -/
theorem step_cases {s t : State} (h : step s = .next t) :
    (s.inbox = [] ∧ t = s) ∨ ∃ x rest, s.inbox = x :: rest ∧
      ((x = .reset ∧ t = (s.setInbox rest).takeReset) ∨
       (∃ l, x = .read l ∧ t = (s.setInbox rest).reply (hostRead s l)) ∨
       (∃ l v, x = .write l v ∧ hostWrite l v (s.setInbox rest) = .next t)) := by
  cases hb : s.inbox with
  | nil =>
    rw [step_nil hb, Host.Outcome.next.injEq] at h
    exact .inl ⟨rfl, h.symm⟩
  | cons x rest =>
    rw [step_cons hb] at h
    refine .inr ⟨x, rest, rfl, ?_⟩
    cases x with
    | reset => rw [hostStep, Host.Outcome.next.injEq] at h; exact .inl ⟨rfl, h.symm⟩
    | read l => rw [hostStep, Host.Outcome.next.injEq] at h; exact .inr (.inl ⟨l, rfl, h.symm⟩)
    | write l v => exact .inr (.inr ⟨l, v, rfl, h⟩)

/-! ## Runs -/

theorem runSteps_zero (s : State) : runSteps 0 s = .next s := rfl

theorem runSteps_succ {s t : State} (n : Nat) (h : step s = .next t) : runSteps (n + 1) s = runSteps n t := by
  simp only [runSteps, Host.Core.run]
  rw [show Sys2Proof.core.step s = .next t from h]

/-- A host step of a run, taken. -/
theorem runSteps_cons {x : HostStep} {rest : List HostStep} {s t : State} (n : Nat)
    (h : hostStep x (s.setInbox rest) = .next t) : runSteps (n + 1) (s.setInbox (x :: rest)) = runSteps n t :=
  runSteps_succ n (by rw [step_cons (rest := rest) rfl]; exact h)

end Sys2Proof.Machine
end

