-- ==== Sys2Proof/Laws/PerInstr.lean ====
section
/-! SUPPORT. Facts about commands as syntax, one lemma per constructor. Family `Fields`: the fields of the encoded word. -/

namespace Sys2Proof.Laws.Fields

/-- The operation code of a command (spec/30_encoding.md R47). -/
def opcode : Instr → Nat
  | .nop => 0x0
  | .packc => 0x1
  | .unpkc => 0x2
  | .selr _ => 0x3
  | .sern => 0x4
  | .fenc => 0x5
  | .fdec => 0x6
  | .gscan => 0x7
  | .cmap => 0x8

/-- The operand in `ARG`, 0 for a command without one (R46, R48). -/
def argument : Instr → Nat
  | .nop => 0
  | .packc => 0
  | .unpkc => 0
  | .selr i => i
  | .sern => 0
  | .fenc => 0
  | .fdec => 0
  | .gscan => 0
  | .cmap => 0

/-- The word of a well-formed command holds its opcode in bits 7:4 and its operand, at most 7, in bits 3:0 (R46). -/
def Statement (i : Instr) : Prop :=
  WellFormed i → (encode i).toNat = 16 * opcode i + argument i ∧ argument i < 8

theorem nop : Statement .nop := fun _ => ⟨rfl, by decide⟩
theorem packc : Statement .packc := fun _ => ⟨rfl, by decide⟩
theorem unpkc : Statement .unpkc := fun _ => ⟨rfl, by decide⟩
theorem selr (i : Nat) : Statement (.selr i) := by
  intro h
  have hi : i < 8 := by simpa [WellFormed, Instr.wellFormed] using h
  refine ⟨?_, hi⟩
  interval_cases i <;> rfl
theorem sern : Statement .sern := fun _ => ⟨rfl, by decide⟩
theorem fenc : Statement .fenc := fun _ => ⟨rfl, by decide⟩
theorem fdec : Statement .fdec := fun _ => ⟨rfl, by decide⟩
theorem gscan : Statement .gscan := fun _ => ⟨rfl, by decide⟩
theorem cmap : Statement .cmap := fun _ => ⟨rfl, by decide⟩

end Sys2Proof.Laws.Fields
end

