-- ==== Sys2Proof/Tests/Slice0.lean ====
section
/-! SUPPORT. The model's own tests. Expected results are the spec's test vectors (spec/95_test_vectors.md) or hand
calculation from the rule named beside a test. Then a witness for the hypotheses of every statement that has some. -/

namespace Sys2Proof.Tests

open Sys2Proof Sys2Proof.Machine

/-! ## Small states and readings -/

/-- The frame unit's dimensions, the cells of strip (band 0, column 0) as in V-FENC-1. -/
def frameState (thresh : Byte) : State :=
  { State.reset with
    width := 128, height := 64, thresh := thresh
    pix := [(0, 0x00), (128, 0x7F), (256, 0x80), (384, 0xC8), (512, 0xC8), (640, 0xC8), (768, 0xC8), (896, 0x10)] }

/-- `LEN = 1024` and the byte of V-FDEC-1 at band 1, column 1. -/
def packedState : State := { State.reset with len := 1024, pkd := [(129, 0x02)] }

/-- The sheet whose conditioned bitmap has the given column bytes: rotated by 180 degrees, dark 0x00, light 0xFF. -/
def sheetState (cslen : Byte) (columns : List Byte) : State :=
  let w := columns.length
  { State.reset with
    width := BitVec.ofNat 16 w, height := 8, cslen := cslen
    pix := (List.range (8 * w)).map fun a =>
      (a, if (columns.getD (w - 1 - a % w) 0).getLsbD (7 - a / w) then 0x00 else 0xFF) }

/-- A character set of codes. -/
def charState (cslen : Byte) (codes : List Byte) : State :=
  { State.reset with cslen := cslen, charset := cellsFrom 0 codes }

/-- A halted block with some state in it. -/
def haltedState : State := { State.reset with halt := true, err := 3, pb := 0x05, rsel := 2, gwarn := true }

/-- The state a step leaves, or the one it began with. -/
def after (o : Host.Outcome State Fault Refusal) (s : State) : State :=
  match o with
  | .next t => t
  | .fault _ => s
  | .refused _ => s

/-- What a scan leaves: `GBYTES`, `GOFFS` up to the counts, and `GWARN`. -/
def scanned (s : State) : List Byte × List Nat × Bool :=
  let t := after (exec .gscan s) s
  ((List.range t.gbcnt.toNat).map t.gbytesAt, (List.range t.gocnt.toNat).map fun k => (t.goffsAt k).toNat, t.gwarn)

/-! ## Well-formedness and decoding (R46 to R49, V-DEC) -/

theorem test_selr_8_is_ill_formed : ¬ WellFormed (.selr 8) := by decide
theorem test_selr_7_is_well_formed : WellFormed (.selr 7) := by decide
theorem test_decode_nop : decode 0b00000000 = .ok .nop := by decide
theorem test_decode_packc : decode 0b00010000 = .ok .packc := by decide
theorem test_decode_unpkc : decode 0b00100000 = .ok .unpkc := by decide
theorem test_decode_selr : decode 0b00110110 = .ok (.selr 6) := by decide
theorem test_decode_sern : decode 0b01000000 = .ok .sern := by decide
theorem test_decode_fenc : decode 0b01010000 = .ok .fenc := by decide
theorem test_decode_fdec : decode 0b01100000 = .ok .fdec := by decide
theorem test_decode_gscan : decode 0b01110000 = .ok .gscan := by decide
theorem test_decode_cmap : decode 0b10000000 = .ok .cmap := by decide
theorem test_decode_reserved : decode 0x0F = .error .argument ∧ decode 0x38 = .error .rowBit ∧
    decode 0x90 = .error .opcode ∧ decode 0xFF = .error .opcode := by decide
theorem test_rows_are_disjoint : ∀ w : BitVec 8, (opTable.filter (·.selects w)).length ≤ 1 := by decide
theorem test_table_word_is_the_low_byte : decodeTableWord 8 0x35 = some (.selr 5) ∧
    decodeTableWord 8 0x39 = none := by decide

/-! ## Bit-column unit (V-PACK, V-UNPK, V-SER) -/

theorem test_packc : (after (exec .packc { State.reset with cin := 0xA5 }) State.reset).pb = 0xA5 := by decide
theorem test_unpkc : (after (exec .unpkc { State.reset with pb := 0xA5 }) State.reset).cout
    = #v[0xFF, 0x00, 0xFF, 0x00, 0x00, 0xFF, 0x00, 0xFF] := by decide
theorem test_selr : ((after (exec (.selr 2) { State.reset with pb := 0x05 }) State.reset).rsel,
    (after (exec (.selr 2) { State.reset with pb := 0x05 }) State.reset).spix) = (2, 0xFF) := by decide
theorem test_sern_wraps : (after (exec .sern { State.reset with rsel := 7 }) State.reset).rsel = 0 := by decide
theorem test_sern_next_row : (after (exec .sern { State.reset with pb := 0x05, rsel := 2 }) State.reset).sout
    = false := by decide

/-! ## Frame unit (V-FENC-1, V-FENC-2, V-FDEC-1, E2) -/

theorem fenc_byte {s : State} (hw : s.width.toNat = 128) (hh : s.height.toNat = 64) {k : Nat} (hk : k < 1024) :
    (after (exec .fenc s) s).pkdAt k = encodeFrame s.frame s.thresh k := by
  rw [show exec .fenc s = _ from execFenc_of_dims hw hh]
  simp only [after]
  rw [State.pkdAt_of_table (s := s) rfl (by simpa using hk), List.getElem_map, List.getElem_range]

theorem fdec_cell {s : State} (hl : s.len.toNat = 1024) {a : Nat} (ha : a < 8192) :
    (after (exec .fdec s) s).pixAt a = decodeFrame s.pkdAt (a / 128) (a % 128) := by
  rw [show exec .fdec s = _ from execFdec_of_len hl]
  simp only [after]
  rw [State.pixAt_of_table (s := s) rfl (by simpa using ha), List.getElem_map, List.getElem_range]

theorem test_fenc_threshold_128 : (after (exec .fenc (frameState 128)) (frameState 128)).pkdAt 0 = 0x83 :=
  (fenc_byte (by decide) (by decide) (by decide)).trans (by decide)
theorem test_fenc_threshold_129 : (after (exec .fenc (frameState 129)) (frameState 129)).pkdAt 0 = 0x87 :=
  (fenc_byte (by decide) (by decide) (by decide)).trans (by decide)
theorem test_fenc_transposed_faults :
    exec .fenc { State.reset with width := 64, height := 128 }
      = .next { State.reset with width := 64, height := 128, err := 2, halt := true } := rfl
theorem test_fdec_band_1 : (after (exec .fdec packedState) packedState).pixAt (9 * 128 + 1) = 0xFF ∧
    (after (exec .fdec packedState) packedState).pixAt (8 * 128 + 1) = 0x00 :=
  ⟨(fdec_cell (by decide) (by decide)).trans (by decide), (fdec_cell (by decide) (by decide)).trans (by decide)⟩
theorem test_fdec_1025_faults : (after (exec .fdec { State.reset with len := 1025 }) State.reset).status = 0x11 := by
  decide

/-! ## Glyph scan and charmap units (V-G1, V-G3, V-G4, V-G7, P3, V-CMAP) -/

theorem test_gscan_empty : scanned { State.reset with height := 8 } = ([], [0], false) := by decide
theorem test_gscan_P3 : scanned (sheetState 2 [0x7E, 0x11, 0x7E, 0x00, 0x00, 0x01, 0x82, 0x00])
    = ([0x7E, 0x10, 0x7E, 0x00, 0x82], [0, 3, 5], false) := by decide
theorem test_gscan_warns : scanned (sheetState 5 [0x10, 0x00, 0x00, 0x10]) = ([0x10, 0x10], [0, 1, 2], true) := by
  decide
theorem test_gscan_height_first : (after (exec .gscan { State.reset with height := 9, width := 2000 })
    State.reset).err = 3 := by decide
theorem test_gscan_1025_faults : (after (exec .gscan { State.reset with height := 8, width := 1025 })
    State.reset).err = 4 := by decide
theorem test_cmap_ABA : (after (exec .cmap (charState 3 [0x41, 0x42, 0x41])) State.reset).cmaptabAt 0x41 = 0 ∧
    (after (exec .cmap (charState 3 [0x41, 0x42, 0x41])) State.reset).cmaptabAt 0x42 = 1 := by decide
theorem test_cmap_ignores_beyond_cslen :
    (after (exec .cmap (charState 1 [0x41, 0x42])) State.reset).cmaptabAt 0x42 = 0xFFFF := by decide

/-! ## Host access, faults, reset (V-SER, V-DEC, V-HALT, P4) -/

theorem test_rsel_write_truncates : hostWrite (.reg 9) 0x0B State.reset = .next { State.reset with rsel := 3 } := rfl
theorem test_command_is_low_byte : hostWrite (.reg 0) 0x1230 haltedState = .next haltedState ∧
    hostWrite (.reg 0) 0x1234 State.reset = .next { State.reset with rsel := 4 } := ⟨rfl, rfl⟩
theorem test_halted_status : hostRead haltedState (.reg 1) = 0x37 := by decide
theorem test_reset_leaves_the_halt : step (haltedState.setInbox [.reset]) = .next { State.reset with epoch := 1 } := rfl
theorem test_memory_write_keeps_order : Memory.write [(1, 5#8), (4, 6#8)] 3 7#8 = [(1, 5#8), (3, 7#8), (4, 6#8)] ∧
    Memory.write [(1, 5#8), (4, 6#8)] 4 7#8 = [(1, 5#8), (4, 7#8)] := by decide
theorem test_fetch_word_runs : step (State.reset.withFetchWord 8 0x33) = .next { State.reset with rsel := 3 } := rfl

/-! ## Witnesses: states and operands that meet the hypotheses of each statement, at the ends of their ranges -/

/-- A frame state and one that differs from it outside FENC's inputs. -/
def frameOther : State := (frameState 128).setPkd 5 0x11

/-- The columns of P3. -/
def columnsP3 : List Byte := [0x7E, 0x11, 0x7E, 0x00, 0x00, 0x01, 0x82, 0x00]

/-- P3's sheet, and the same with a cell just beyond it and a bit-column register changed. -/
def sheetP3 : State := sheetState 2 columnsP3
def sheetOther : State := { sheetP3.setPix 64 0x00 with pb := 0x55 }

theorem setPix_pixAt_ne (s : State) {a b : Nat} (v : Byte) (h : b ≠ a) : (s.setPix a v).pixAt b = s.pixAt b := by
  simp only [State.pixAt, State.setPix_pix, State.setPix_epoch, Memory.read_write_ne _ v h]

theorem setCharset_charsetAt_ne (s : State) {a b : Nat} (v : Byte) (h : b ≠ a) :
    (s.setCharset a v).charsetAt b = s.charsetAt b := by
  simp only [State.charsetAt, State.setCharset_charset, State.setCharset_epoch, Memory.read_write_ne _ v h]

theorem witness_PackSetsBitPerActiveRow : ∃ (a a' : Nat → Bool) (i : Nat), i < 8 ∧ pack a = pack a' :=
  ⟨fun i => i == 7, fun i => i == 7, 7, by decide, rfl⟩
theorem witness_UnpackIsLightForSetBits : (0 : Nat) < 8 ∧ (7 : Nat) < 8 := by decide
theorem witness_NopLeavesTheState : 0 % 256 = 0 ∧ 256 % 256 = 0 := by decide
theorem witness_PackcCopiesCinIntoPb : (0 : Nat) < 8 ∧ (7 : Nat) < 8 := by decide
theorem witness_SelrSelectsTheRow : ((0 : Nat) < 8 ∧ (7 : Nat) < 8) ∧ State.reset.rsel.toNat = 0 := by decide
theorem witness_SerialReadsTopRowFirst : State.reset.halt = false := rfl
theorem witness_BitColumnCommandsKeepTheRest :
    exec .nop State.reset = .next State.reset ∧
    exec .packc State.reset = .next State.reset ∧
    (∃ t, exec .unpkc { State.reset with pb := 1 } = .next t) ∧
    exec (.selr 7) State.reset = .next { State.reset with rsel := 7 } ∧
    exec .sern { State.reset with rsel := 7 } = .next { State.reset with rsel := 0 } ∧
    Loc.isMemory (.pix 8191) = true := by
  exact ⟨rfl, rfl, ⟨_, rfl⟩, rfl, rfl, rfl⟩
theorem witness_FencPacksDarkCells : (frameState 128).width = 128 ∧ (frameState 128).height = 64 ∧
    (7 : Nat) < 8 ∧ (127 : Nat) < 128 := by decide
theorem witness_FdecUnpacksBytesIntoCells : packedState.len = 1024 ∧ (7 : Nat) < 8 ∧ (127 : Nat) < 128 := by decide
theorem frameState_inv : BlockInv (frameState 128) := by
  constructor <;> first | rfl | decide
theorem packedState_inv : BlockInv packedState := by
  constructor <;> first | rfl | decide
theorem haltedState_inv : BlockInv haltedState := by
  constructor <;> first | rfl | decide
theorem sheetP3_inv : BlockInv sheetP3 := by
  constructor <;> first | rfl | decide
theorem witness_FencRefinesItsPseudocode : BlockInv (frameState 128) := frameState_inv
theorem witness_FdecRefinesItsPseudocode : BlockInv packedState := packedState_inv
theorem witness_GscanRefinesItsPseudocode : BlockInv sheetP3 := sheetP3_inv
theorem witness_CmapRefinesItsPseudocode : BlockInv sheetP3 := sheetP3_inv
theorem witness_FrameRoundTripComplements :
    ((frameState 128).width = 128 ∧ (frameState 128).height = 64 ∧ (frameState 128).thresh = 128) ∧
    packedState.len = 1024 ∧ (63 : Nat) < 64 ∧ (127 : Nat) < 128 ∧ (1023 : Nat) < 1024 := by decide
theorem witness_BulkCommandsIgnoreBitColumnRegisters : Instr.fenc = .fenc ∧ Instr.fdec = .fdec ∧
    Instr.gscan = .gscan ∧ Instr.cmap = .cmap := by decide
theorem witness_GscanStoresTheScanOfTheRotatedSheet :
    sheetP3.height = 8 ∧ sheetP3.width.toNat ≤ 1024 ∧ columnsP3.length = sheetP3.width.toNat ∧
    (∀ c i, (h : c < columnsP3.length) → i < 8 → columnsP3[c].getLsbD i
      = decide ((sheetP3.pixAt ((7 - i) * sheetP3.width.toNat + (sheetP3.width.toNat - 1 - c))).toNat < 128)) := by
  have key : ∀ (c i : Fin 8), columnsP3[c].getLsbD i.val = decide ((sheetP3.pixAt
      ((7 - i.val) * sheetP3.width.toNat + (sheetP3.width.toNat - 1 - c.val))).toNat < 128) := by decide
  exact ⟨by decide, by decide, by decide, fun c i h hi => key ⟨c, h⟩ ⟨i, hi⟩⟩
theorem witness_GscanStores_empty_and_widest :
    { State.reset with height := 8 }.height = 8 ∧ { State.reset with height := 8 }.width.toNat = 0 ∧
    { State.reset with height := 8, width := 1024 }.width.toNat ≤ 1024 := by decide
theorem witness_GwarnIsTheGlyphCountVerdict : sheetP3.height = 8 ∧ sheetP3.width.toNat ≤ 1024 ∧
    Instr.cmap ≠ .gscan ∧ exec .nop State.reset = .next State.reset ∧ State.reset.halt = false := by
  exact ⟨by decide, by decide, by decide, rfl, rfl⟩
theorem witness_OffsetsRiseStrictlyFromZero : (scan columnsP3).bytes ≠ [] := by decide
theorem witness_ScanCountsFitTheirRegisters : ([] : List Byte).length ≤ 1024 ∧ columnsP3.length ≤ 1024 := by decide
theorem witness_CmapIndexesTheReversedCharset :
    let s := charState 3 [0x41, 0x42, 0x41]
    (0 < s.cslen.toNat ∧ (s.charsetAt (s.cslen.toNat - 1 - 0)).toNat = 0x41) ∧
    (1 < s.cslen.toNat ∧ (s.charsetAt (s.cslen.toNat - 1 - 1)).toNat = 0x42 ∧
      ∀ k, k < 1 → (s.charsetAt (s.cslen.toNat - 1 - k)).toNat ≠ 0x42) ∧
    (2 < s.cslen.toNat ∧ (s.charsetAt 2).toNat = 0x41) ∧
    (∀ p, p < s.cslen.toNat → (s.charsetAt p).toNat ≠ 0xFF) := by decide
theorem witness_GscanAndCmapCommute : sheetP3.height = 8 ∧ sheetP3.width.toNat ≤ 1024 := by decide
theorem witness_BulkCommandsStoreOnlyTheirOutputs :
    ((frameState 128).width = 128 ∧ (frameState 128).height = 64 ∧ Loc.reg 1 ≠ .reg 5 ∧
      ∀ a, Loc.reg 1 ≠ .pkd a) ∧
    (packedState.len = 1024 ∧ Loc.pkd 1023 ≠ .reg 3 ∧ Loc.pkd 1023 ≠ .reg 4 ∧ ∀ a, Loc.pkd 1023 ≠ .pix a) ∧
    (sheetP3.height = 8 ∧ sheetP3.width.toNat ≤ 1024 ∧ ∃ t, exec .gscan sheetP3 = .next t ∧
      ∀ a, Loc.gbytes 1023 = .gbytes a → t.gbcnt.toNat ≤ a.toNat) ∧
    (∀ a, Loc.goffs 0 ≠ .cmaptab a) := by
  refine ⟨⟨by decide, by decide, by decide, by simp⟩, ⟨by decide, by decide, by decide, by simp⟩,
    ⟨by decide, by decide, _, execGscan_of_sheet (by decide) (by decide), fun a h => ?_⟩, by simp⟩
  cases h
  decide
theorem witness_BulkResultsDependOnlyOnInputs :
    ((frameState 128).width = 128 ∧ (frameState 128).height = 64 ∧ frameOther.width = 128 ∧
      frameOther.height = 64 ∧ frameOther.thresh = (frameState 128).thresh ∧
      ∀ a, a < 8192 → frameOther.pixAt a = (frameState 128).pixAt a) ∧
    (packedState.len = 1024 ∧ ({ packedState with pb := 9 } : State).len = 1024 ∧
      ∀ k, k < 1024 → ({ packedState with pb := 9 } : State).pkdAt k = packedState.pkdAt k) ∧
    (sheetP3.height = 8 ∧ sheetOther.height = 8 ∧ sheetP3.width.toNat ≤ 1024 ∧ sheetOther.width = sheetP3.width ∧
      sheetOther.cslen = sheetP3.cslen ∧
      ∀ a, a < 8 * sheetP3.width.toNat → sheetOther.pixAt a = sheetP3.pixAt a) ∧
    (((charState 2 [0x41, 0x42]).setCharset 2 0x43).cslen = (charState 2 [0x41, 0x42]).cslen ∧
      ∀ k, k < (charState 2 [0x41, 0x42]).cslen.toNat →
        ((charState 2 [0x41, 0x42]).setCharset 2 0x43).charsetAt k = (charState 2 [0x41, 0x42]).charsetAt k) := by
  refine ⟨⟨by decide, by decide, by decide, by decide, by decide, fun _ _ => rfl⟩, ⟨by decide, by decide, fun _ _ => rfl⟩,
    ⟨by decide, by decide, by decide, by decide, by decide, fun a ha => ?_⟩, ⟨by decide, fun k hk => ?_⟩⟩
  · exact setPix_pixAt_ne sheetP3 (a := 64) 0x00 (by
      have : sheetP3.width.toNat = 8 := by decide
      omega)
  · exact setCharset_charsetAt_ne _ (a := 2) _ (by
      have : (charState 2 [0x41, 0x42]).cslen.toNat = 2 := by decide
      omega)
theorem witness_DecodeAndEncodeAgree : WellFormed (.selr 7) ∧ WellFormed .cmap ∧ decode 0x37 = .ok (.selr 7) := by
  decide
theorem witness_ReservedWordsRaiseIllegalCommand : State.reset.halt = false ∧ decode 0x38 = .error .rowBit ∧
    decode 0x37 = .ok (.selr 7) ∧ decode 0x01 = .error .argument ∧ decode 0x90 = .error .opcode ∧
    decode 0x80 = .ok .cmap := by decide
theorem witness_CommandIsTheLowByteOfTheWrite : 0x1230 % 256 = 0x30 % 256 := by decide
theorem witness_StepRunsTheDecodedCommand :
    State.reset.halt = false ∧ (State.reset.setInbox [.write (.reg 0) 0x137]).inbox = .write (.reg 0) 0x137 :: [] ∧
    decode (BitVec.ofNat 8 0x137) = .ok (.selr 7) ∧ decodeTableWord 8 0x80 = some .cmap := by decide
theorem witness_MuxOutputsFollowPbAndRsel : ({ State.reset with cin := 3 } : State).pb = State.reset.pb ∧
    ({ State.reset with cin := 3 } : State).rsel = State.reset.rsel := by decide
theorem witness_RegisterSpaceFollowsTheTable : State.reset.halt = false ∧
    (2, 8) ∈ [(2, 8), (3, 16), (4, 16), (5, 16), (6, 8), (7, 8), (8, 8), (9, 3)] ∧
    (9, 3) ∈ [(2, 8), (3, 16), (4, 16), (5, 16), (6, 8), (7, 8), (8, 8), (9, 3)] ∧
    Loc.reg 2 ≠ .reg 9 ∧ Loc.reg 2 ≠ .reg 1 ∧ Loc.reg 2 ≠ .reg 10 ∧
    (13 ≤ 13 ∧ 13 ≤ 15) ∧ (13 ≤ 15 ∧ 15 ≤ 15) ∧ (13 ≤ 24 ∧ 24 ≤ 24) := by decide
theorem witness_HostWriteStoresOneElement : State.reset.halt = false ∧ Loc.isMemory (.pix 8191) = true ∧
    Loc.isMemory (.goffs 1023) = true ∧ Loc.isMemory (.cmaptab 255) = true ∧ Loc.pkd 0 ≠ .pix 0 ∧
    Loc.pix 0 ≠ .pix 8191 := by decide
theorem witness_HostReadChangesNothing : (haltedState.setInbox [.read (.reg 1), .read (.reg 1)]).inbox
    = .read (.reg 1) :: .read (.reg 1) :: [] := by decide
theorem witness_EachStateIsWrittenOnlyByItsWriters :
    (∃ t, step (State.reset.setInbox [.write (.reg 7) 5]) = .next t ∧ t.cin ≠ State.reset.cin) ∧
    (∃ t, step (State.reset.withFetchWord 8 0x37) = .next t ∧ t.rsel ≠ State.reset.rsel) ∧
    (∃ t, step (packedState.withFetchWord 8 0x60) = .next t ∧ t.width ≠ packedState.width) ∧
    (∃ t, step (State.reset.withFetchWord 8 0x60) = .next t ∧ t.err ≠ State.reset.err) := by
  exact ⟨⟨_, rfl, by decide⟩, ⟨_, rfl, by decide⟩, ⟨_, rfl, by decide⟩, ⟨_, rfl, by decide⟩⟩
theorem witness_EachFaultHasExactlyItsCondition : State.reset.halt = false ∧
    ({ State.reset with len := 1023 } : State).len.toNat ≠ 1024 ∧
    ({ State.reset with width := 128, height := 63 } : State).height.toNat ≠ 64 ∧
    ({ State.reset with width := 129, height := 64 } : State).width.toNat ≠ 128 ∧
    ({ State.reset with height := 7 } : State).height.toNat ≠ 8 ∧
    ({ State.reset with height := 8, width := 1025 } : State).height.toNat = 8 ∧
    1024 < ({ State.reset with height := 8, width := 1025 } : State).width.toNat := by decide
theorem witness_FirstFaultInTheOrderOfChecks : haltedState.halt = true ∧ State.reset.halt = false ∧
    decode (BitVec.ofNat 8 0x41) = .error .argument ∧ State.reset.width.toNat ≠ 128 ∧ State.reset.len.toNat ≠ 1024 ∧
    State.reset.height.toNat ≠ 8 ∧ ({ State.reset with height := 8, width := 1025 } : State).height.toNat = 8 ∧
    1024 < ({ State.reset with height := 8, width := 1025 } : State).width.toNat ∧
    Instr.cmap ≠ .fenc ∧ Instr.cmap ≠ .fdec ∧ Instr.cmap ≠ .gscan := by decide
theorem witness_FaultingCommandChangesOnlyStatus : State.reset.halt = false ∧
    issue 0x60 State.reset = .next (State.reset.raise .sizeMismatch) ∧
    (State.reset.raise .sizeMismatch).halt = true := ⟨rfl, rfl, rfl⟩
theorem witness_HaltedBlockIsFrozenButReadable : haltedState.halt = true ∧
    HostStep.reset ∉ (haltedState.setInbox [.write (.reg 0) 0x60, .read (.reg 1), .reset]).inbox.take 2 := by decide
theorem witness_ResetStepRestoresTheResetState : (haltedState.setInbox [.reset]).inbox = .reset :: [] := rfl
theorem witness_OnlyResetLeavesTheHaltedState :
    (haltedState.setInbox [.reset]).resetsNext ∧
    ∃ t, step (haltedState.setInbox [.reset]) = .next t ∧ (haltedState.setInbox [.reset]).halt = true ∧
      t.halt = false ∧ t.block ≠ (haltedState.setInbox [.reset]).block ∧ BlockInv haltedState ∧
      haltedState.err ≠ 0 ∧ t.err = 0 :=
  ⟨rfl, _, rfl, rfl, rfl, by decide, haltedState_inv, by decide, rfl⟩
theorem witness_BufferReuseFaults : packedState.len = 1024 ∧ sheetP3.height = 8 ∧
    (frameState 128).width = 128 ∧ (frameState 128).height = 64 ∧ (frameState 128).len ≠ 1024 := by decide
theorem witness_ParametersAreSampledAtIssue : State.reset.halt = false := rfl
theorem witness_LoadPixPlacesTheBitmap : State.reset.halt = false ∧ 8 < 65536 ∧ 1 < 65536 ∧ 8 * 1 ≤ 8192 ∧
    columnsP3.length = 8 * 1 := by decide
theorem witness_EveryStepKeepsTheInvariant : BlockInv (packedState.withFetchWord 8 0x60) ∧
    ∃ t, step (packedState.withFetchWord 8 0x60) = .next t ∧ t.height = 64 := by
  refine ⟨?_, _, rfl, rfl⟩
  constructor <;> first | rfl | decide

end Sys2Proof.Tests
end

