-- ==== Sys2Proof/Proofs/MuxOutputs.lean ====
section
/-! PROOF. The mux outputs and where the host sees them (spec/10_state.md R15, R21, R23). -/

namespace Sys2Proof.Machine

/-- A host read of an implemented register number reads that register (spec/20_memory.md R40). -/
theorem hostRead_reg {n : Nat} {r : Reg} (hn : Reg.ofNumber n = some r) (s : State) :
    hostRead s (.reg n) = s.readReg r := by
  simp only [hostRead, hn]

/-- `STATUS[2]` mirrors `SOUT` (spec/10_state.md R21): bits 0 and 1, `HALT` and `GWARN`, lie below it. -/
theorem State.status_getLsbD_two (s : State) : s.status.getLsbD 2 = s.sout := by
  simp only [State.status, BitVec.getLsbD_append]
  simp

theorem State.spix_congr {s t : State} (hp : t.pb = s.pb) (hr : t.rsel = s.rsel) : t.spix = s.spix := by
  rw [State.spix, State.spix, State.sout_congr hp hr]

/-- Settles O33: the mux outputs are defined by `PB` and `RSEL`; the host sees them in `STATUS[2]` and register 10. -/
theorem muxOutputsFollowPbAndRsel : Obligations.MuxOutputsFollowPbAndRsel :=
  ⟨fun s => ⟨rfl, rfl, s.status_getLsbD_two, hostRead_reg (Reg.ofNumber_number .spix) s⟩,
    fun _ _ hp hr => ⟨State.sout_congr hp hr, State.spix_congr hp hr⟩⟩

end Sys2Proof.Machine
end

