-- ==== Sys2Proof/Proofs/ReservedWords.lean ====
section
/-! PROOF. The reserved command words and the fault they raise (spec/30_encoding.md R47, R49; spec/60_exceptions.md R90). -/

namespace Sys2Proof

/-! ## Which words the opcode map leaves out -/

/-- A word is reserved iff no row of the map selects it (R49). -/
theorem decode_eq_error_iff (w : BitVec 8) :
    (∃ e, decode w = .error e) ↔ ∀ r ∈ opTable, r.selects w = false := by
  unfold decode
  cases hf : opTable.find? (·.selects w) with
  | none => simpa using hf
  | some r => simpa using ⟨r, List.mem_of_find?_eq_some hf, List.find?_some (p := (OpRow.selects · w)) hf⟩

/-- A row whose mask has all eight bits selects its pattern alone. -/
theorem OpRow.full_mask_selects_eq_false_iff (mnemonic : String) (pattern w : BitVec 8) (build : BitVec 8 → Instr) :
    OpRow.selects ⟨mnemonic, 0xFF, pattern, build⟩ w = false ↔ w.toNat ≠ pattern.toNat := by
  have hmask : w &&& 0xFF = w := BitVec.and_allOnes
  rw [OpRow.selects, hmask, beq_eq_false_iff_ne, ne_eq, ← BitVec.toNat_inj]

/-- SELR's row leaves bits 2:0 free: it selects `0x30 .. 0x37`. -/
theorem OpRow.selr_mask_selects_eq_false_iff (mnemonic : String) (w : BitVec 8) (build : BitVec 8 → Instr) :
    OpRow.selects ⟨mnemonic, 0xF8, 0x30, build⟩ w = false ↔ w.toNat / 8 ≠ 6 := by
  have hmask : ∀ w : BitVec 8, w &&& 0xF8 ≠ 0x30 ↔ w.toNat / 8 ≠ 6 := by decide
  rw [OpRow.selects, beq_eq_false_iff_ne, hmask]

/-- The three classes of R49 are the words no row selects. -/
theorem decode_eq_error_iff_class (w : BitVec 8) : (∃ e, decode w = .error e) ↔
    (9 ≤ w.toNat / 16 ∨ (w.toNat / 16 ≤ 8 ∧ w.toNat / 16 ≠ 3 ∧ w.toNat % 16 ≠ 0) ∨
      (w.toNat / 16 = 3 ∧ 8 ≤ w.toNat % 16)) := by
  simp only [decode_eq_error_iff, opTable, List.forall_mem_cons, List.not_mem_nil, false_imp_iff, implies_true,
    and_true, OpRow.full_mask_selects_eq_false_iff,
    OpRow.selr_mask_selects_eq_false_iff, BitVec.reduceToNat]
  omega

/-! ## How many they are -/

/-- The reserved words with a given `OP`: all 16, or 8 of SELR's row, or all but `ARG = 0`. -/
def reservedWithOpcode (op : Nat) : Nat := if 9 ≤ op then 16 else if op = 3 then 8 else 15

theorem length_reserved_row : ∀ op < 16, (((List.range 16).map (op * 16 + ·)).filter
    fun n => (decodeTableWord 8 n).isNone).length = reservedWithOpcode op := by
  decide

/-- Numbers below `m * n` in rows of `n`. -/
theorem range_mul_eq_flatMap (m n : Nat) :
    List.range (m * n) = (List.range m).flatMap fun op => (List.range n).map (op * n + ·) := by
  induction m with
  | zero => simp
  | succ m ih => rw [Nat.succ_mul, List.range_add, ih, List.range_succ]; simp

theorem length_reserved : ((List.range 256).filter fun n => (decodeTableWord 8 n).isNone).length = 240 :=
  calc
    _ = ((List.range 16).map reservedWithOpcode).sum := by
      rw [range_mul_eq_flatMap 16 16, List.filter_flatMap, List.length_flatMap,
        List.map_congr_left fun op h => length_reserved_row op (List.mem_range.mp h)]
    _ = 240 := rfl

end Sys2Proof

namespace Sys2Proof.Machine

/-! ## Only command decode raises `IllegalCommand` -/

/-- A command leaves `HALT` and `ERR` as they were, or enters one of the faults of its own unit (R86 to R89). -/
theorem exec_keeps_halt_or_raises {i : Instr} {s t : State} (h : exec i s = .next t) :
    (t.halt = s.halt ∧ t.err = s.err) ∨ ∃ c, c ≠ .illegalCommand ∧ t = s.raise c := by
  obtain ⟨-, rfl⟩ | ⟨-, rfl⟩ | ⟨-, rfl⟩ | ⟨_, -, rfl⟩ | ⟨-, rfl⟩ | ⟨-, -, rfl⟩ | ⟨-, -, -, rfl⟩ | ⟨-, -, rfl⟩ |
    ⟨-, -, rfl⟩ | ⟨-, -, rfl⟩ | ⟨-, -, -, rfl⟩ | ⟨-, -, -, rfl⟩ | ⟨-, rfl⟩ := exec_cases h
  -- the bit-column unit, then FENC, FDEC, GSCAN and CMAP
  exacts [.inl ⟨rfl, rfl⟩, .inl ⟨rfl, rfl⟩, .inl ⟨rfl, rfl⟩, .inl ⟨rfl, rfl⟩, .inl ⟨rfl, rfl⟩,
    .inr ⟨.dimension, by decide, rfl⟩, .inl ⟨rfl, rfl⟩,
    .inr ⟨.sizeMismatch, by decide, rfl⟩, .inl ⟨rfl, rfl⟩,
    .inr ⟨.glyphHeight, by decide, rfl⟩, .inr ⟨.capacity, by decide, rfl⟩, .inl ⟨rfl, rfl⟩,
    .inl ⟨rfl, rfl⟩]

/-- The codes of the faults are distinct, so `ERR` tells a command's fault from `IllegalCommand`. -/
theorem exec_ne_raise_illegalCommand (i : Instr) {s : State} (hs : s.halt = false) :
    exec i s ≠ .next (s.raise .illegalCommand) := by
  intro h
  obtain ⟨hhalt, -⟩ | ⟨c, hc, ht⟩ := exec_keeps_halt_or_raises h
  · simp [hs] at hhalt
  · exact hc (Cause.code_injective (c := .illegalCommand) (congrArg State.err ht)).symm

theorem issue_raises_iff_reserved (w : BitVec 8) {s : State} (hs : s.halt = false) :
    issue w s = .next (s.raise .illegalCommand) ↔ ∃ e, decode w = .error e := by
  cases hd : decode w with
  | ok i => simpa [issue_of_ok hd] using exec_ne_raise_illegalCommand i hs
  | error e => simp [issue_of_error hd]

/-- Settles O30: the map leaves out exactly R49's classes, counted row by row, and no command ends as `IllegalCommand`. -/
theorem reservedWordsRaiseIllegalCommand : Obligations.ReservedWordsRaiseIllegalCommand :=
  ⟨decode_eq_error_iff_class, length_reserved, fun w _ hs => issue_raises_iff_reserved w hs⟩

end Sys2Proof.Machine
end

