-- ==== Sys2Proof/Proofs/PackUnpack.lean ====
section
/-! PROOF. Packing and unpacking of one bit column (spec/40_bitcolumn.md R57, R58). -/

namespace Sys2Proof.Machine

/-! ## The packed byte as a number (R57) -/

/-- The weights of the active ones among the first `n` rows. -/
def rowWeight (a : Nat → Bool) (n : Nat) : Nat := ((List.range n).map fun i => if a i then 2 ^ i else 0).sum

theorem rowWeight_succ (a : Nat → Bool) (n : Nat) :
    rowWeight a (n + 1) = rowWeight a n + if a n then 2 ^ n else 0 := by
  simp [rowWeight, List.range_succ]

theorem rowWeight_lt (a : Nat → Bool) (n : Nat) : rowWeight a n < 2 ^ n := by
  induction n with
  | zero => exact Nat.one_pos
  | succ n ih =>
    rw [rowWeight_succ, Nat.pow_succ]
    split <;> omega

/-- Setting a bit above all the set ones adds its weight. -/
theorem toNat_or_bitAt {b : Byte} {n : Nat} (hb : b.toNat < 2 ^ n) (hn : n < 8) (c : Bool) :
    (b ||| bitAt n c).toNat = b.toNat + if c then 2 ^ n else 0 := by
  cases c with
  | false => simp [bitAt]
  | true =>
    have hpow : (BitVec.twoPow 8 n).toNat = 2 ^ n := BitVec.toNat_twoPow_of_lt hn
    simp only [bitAt, if_true, BitVec.toNat_or, hpow]
    have hor : 2 ^ n + b.toNat = 2 ^ n ||| b.toNat := by simpa using Nat.two_pow_add_eq_or_of_lt hb 1
    rw [Nat.or_comm, ← hor, Nat.add_comm]

/-- `pack`'s loop after `n` rows. -/
theorem toNat_foldl_bitAt (a : Nat → Bool) {n : Nat} (hn : n ≤ 8) :
    ((List.range n).foldl (fun b i => b ||| bitAt i (a i)) (0 : Byte)).toNat = rowWeight a n := by
  induction n with
  | zero => rfl
  | succ n ih =>
    have hn' := ih (by omega)
    rw [List.range_succ, List.foldl_append, List.foldl_cons, List.foldl_nil,
      toNat_or_bitAt (hn' ▸ rowWeight_lt a n) (by omega), hn', rowWeight_succ]

/-! ## Packing is a bijection (R57) -/

theorem getLsbD_pack (a : Nat → Bool) {i : Nat} (hi : i < 8) : (pack a).getLsbD i = a i := by
  rw [getLsbD_pack_eq, decide_eq_true hi, Bool.true_and]

theorem eq_of_pack_eq {a a' : Nat → Bool} (h : pack a = pack a') {i : Nat} (hi : i < 8) : a i = a' i := by
  rw [← getLsbD_pack a hi, h, getLsbD_pack a' hi]

/-- Settles O1: the loop sets one bit per row, each above those before it; the bits of a byte are its inverse. -/
theorem packSetsBitPerActiveRow : Obligations.PackSetsBitPerActiveRow :=
  ⟨fun a _ hi => getLsbD_pack a hi, fun a => toNat_foldl_bitAt a (Nat.le_refl 8), pack_bits,
    fun _ _ h _ hi => eq_of_pack_eq h hi⟩

/-! ## Unpacking (R58) -/

theorem unpack_eq_dark_or_light (b : Byte) (i : Nat) : unpack b i = 0x00 ∨ unpack b i = 0xFF := by
  rw [unpack_eq]
  split
  · exact .inr rfl
  · exact .inl rfl

/-- A lane is light iff its bit is set. -/
theorem unpack_beq_light (b : Byte) (i : Nat) : (unpack b i == 0xFF) = b.getLsbD i := by
  rw [unpack_eq]
  cases b.getLsbD i <;> rfl

/-- A lane is dark iff its bit is clear. -/
theorem unpack_lt_threshold (b : Byte) (i : Nat) : decide ((unpack b i).toNat < 128) = !b.getLsbD i := by
  rw [Bool.eq_iff_iff, decide_eq_true_iff, unpack_toNat_lt b i 128 (by decide) (by decide), Bool.not_eq_true']

theorem pack_light_lanes (b : Byte) : pack (fun i => unpack b i == 0xFF) = b := by
  simp only [unpack_beq_light, pack_bits]

theorem pack_dark_lanes (b : Byte) : pack (fun i => decide ((unpack b i).toNat < 128)) = b ^^^ 0xFF :=
  calc
    _ = pack (fun i => (~~~b).getLsbD i) := pack_congr fun i hi => by
      rw [unpack_lt_threshold, BitVec.getLsbD_not, decide_eq_true hi, Bool.true_and]
    _ = ~~~b := pack_bits _
    _ = b ^^^ 0xFF := BitVec.xor_allOnes.symm

/-- Settles O2: each lane is its bit, so repacking by light gives the byte and by darkness the complement. -/
theorem unpackIsLightForSetBits : Obligations.UnpackIsLightForSetBits := fun b =>
  ⟨fun i _ => unpack_eq b i, fun i _ => unpack_eq_dark_or_light b i, pack_light_lanes b, pack_dark_lanes b⟩

end Sys2Proof.Machine
end

