-- ==== Sys2Proof/Proofs/BitColumn.lean ====
section
/-! PROOF. The commands of the bit-column unit (spec/40_bitcolumn.md R59 to R63). -/

namespace Sys2Proof.Machine

/-! ## NOP, PACKC, UNPKC (R59 to R61) -/

/-- A write to `CMD` whose low byte is 0 changes nothing: ignored while halted, else issued as `NOP`. -/
theorem hostWrite_cmd_nop (s : State) {v : Nat} (hv : v % 256 = 0) : hostWrite (.reg 0) v s = .next s := by
  cases hh : s.halt with
  | true => exact hostWrite_halted hh _ v
  | false =>
    have hw : BitVec.ofNat 8 v = 0x00 := BitVec.eq_of_toNat_eq hv
    rw [hostWrite_cmd hh, hw, issue_of_ok (i := .nop) (by decide)]
    rfl

/-- Settles O3: `NOP` is the identity, and a halted block ignores the write that would issue it. -/
theorem nopLeavesTheState : Obligations.NopLeavesTheState :=
  ⟨by decide, fun _ => rfl, fun s _ hv => hostWrite_cmd_nop s hv⟩

/-- Settles O4: packing the bits of `CIN` gives `CIN`. -/
theorem packcCopiesCinIntoPb : Obligations.PackcCopiesCinIntoPb :=
  ⟨by decide, fun s => ⟨_, execPackc_eq s, rfl, fun _ _ => rfl, rfl, rfl⟩⟩

/-- Settles O5: lane `i` of `COUT` is lane `i` of `unpack(PB)`. -/
theorem unpkcSpreadsPbOverCout : Obligations.UnpkcSpreadsPbOverCout := by
  refine ⟨by decide, fun s => ⟨_, rfl, rfl, fun i => ?_⟩⟩
  rw [Fin.getElem_fin, Vector.getElem_ofFn, unpack_eq]

/-! ## The mux presents the selected row (R15) -/

theorem State.sout_of_rsel {s : State} {i : Nat} (h : s.rsel.toNat = i) : s.sout = s.pb.getLsbD i := by
  rw [State.sout, h]

theorem State.spix_of_rsel {s : State} {i : Nat} (h : s.rsel.toNat = i) : s.spix = unpack s.pb i := by
  rw [State.spix, State.sout_of_rsel h, unpack]

/-! ## SELR (R62) -/

theorem rowSelect_toNat {i : Nat} (hi : i < 8) : (rowSelect i).toNat = i :=
  Nat.mod_eq_of_lt hi

theorem rowSelect_of_toNat (r : BitVec 3) : rowSelect r.toNat = r := by
  rw [rowSelect, BitVec.ofNat_toNat, BitVec.setWidth_eq]

/-- The words of `SELR` (spec/30_encoding.md R47, R48). -/
theorem decode_selr_word : ∀ i < 8, decode (0x30 ||| BitVec.ofNat 8 i) = .ok (.selr i) := by decide

/-- The other half of SELR's opcode is reserved (spec/30_encoding.md R49). -/
theorem decode_reserved_selr_word {j : Nat} (hj : j < 8) : ∃ e, decode (0x38 ||| BitVec.ofNat 8 j) = .error e := by
  have hw : ∀ j < 8, (0x38 ||| BitVec.ofNat 8 j : BitVec 8).toNat = 56 + j := by decide
  rw [decode_eq_error_iff_class, hw j hj]
  omega

theorem exec_selr_current (s : State) : exec (.selr s.rsel.toNat) s = .next s := by
  rw [exec, execSelr, rowSelect_of_toNat]

/-- Settles O6: `RSEL` holds the operand, so the mux presents that row; the words past row 7 are reserved. -/
theorem selrSelectsTheRow : Obligations.SelrSelectsTheRow := by
  refine ⟨decode_selr_word, fun i s hi => ?_, exec_selr_current, fun j s hj => ?_⟩
  · have hr : ({ s with rsel := rowSelect i } : State).rsel.toNat = i := rowSelect_toNat hi
    exact ⟨_, rfl, rfl, hr, State.sout_of_rsel hr, State.spix_of_rsel hr, State.status_getLsbD_two _⟩
  · obtain ⟨_, he⟩ := decode_reserved_selr_word hj
    exact issue_of_error he s

/-! ## SERN (R63) -/

/-- `n` times `SERN` move the row select by `n`, modulo 8. -/
theorem execAll_replicate_sern (n : Nat) (s : State) :
    execAll (List.replicate n .sern) s = .next { s with rsel := s.rsel + BitVec.ofNat 3 n } := by
  induction n generalizing s with
  | zero => simp [execAll]
  | succ n ih =>
    have hrsel : s.rsel + 1#3 + BitVec.ofNat 3 n = s.rsel + BitVec.ofNat 3 (n + 1) := by
      rw [BitVec.ofNat_add, BitVec.add_comm (BitVec.ofNat 3 n), BitVec.add_assoc]
    calc
      _ = execAll (List.replicate n .sern) { s with rsel := s.rsel + 1#3 } := rfl
      _ = .next { s with rsel := s.rsel + 1#3 + BitVec.ofNat 3 n } := ih _
      _ = _ := by rw [hrsel]

/-- Settles O7: the 3-bit increment wraps, so the mux presents the next row modulo 8 and eight increments add 0. -/
theorem sernAdvancesModuloEight : Obligations.SernAdvancesModuloEight := by
  refine ⟨by decide, fun s => ?_, fun s => ?_⟩
  · have hr : ({ s with rsel := s.rsel + 1 } : State).rsel.toNat = (s.rsel.toNat + 1) % 8 := BitVec.toNat_add _ _
    exact ⟨_, rfl, rfl, hr, State.sout_of_rsel hr, rfl, State.status_getLsbD_two _⟩
  · have h8 : s.rsel + BitVec.ofNat 3 8 = s.rsel := BitVec.add_zero _
    rw [execAll_replicate_sern, h8]

end Sys2Proof.Machine
end

