-- ==== Sys2Proof/Proofs/CellLoops.lean ====
section
/-! PROOF. A loop that stores one element after another, against the one table a bulk command writes (log entry 11). -/

namespace Sys2Proof.Machine

variable {α : Type}

/-- The memory after storing the cells one by one, first to last. -/
def Memory.writeCells (m : Memory α) (cells : Memory α) : Memory α :=
  cells.foldl (fun m c => m.write c.1 c.2) m

theorem Memory.writeCells_cons (m : Memory α) (c : Nat × α) (cells : Memory α) :
    m.writeCells (c :: cells) = (m.write c.1 c.2).writeCells cells := rfl

/-- Where each stored value is given by its index, the order of the stores does not show. -/
theorem Memory.read_writeCells {g : Nat → α} {cells : Memory α} (hg : ∀ c ∈ cells, c.2 = g c.1) (m : Memory α)
    (a : Nat) : (m.writeCells cells).read a = if a ∈ cells.map Prod.fst then some (g a) else m.read a := by
  induction cells generalizing m with
  | nil => rfl
  | cons c cells ih =>
    obtain ⟨hc, hcells⟩ := List.forall_mem_cons.mp hg
    rw [Memory.writeCells_cons, ih hcells, Memory.read_write, hc]
    simp only [List.map_cons, List.mem_cons]
    by_cases ha : a = c.1
    · simp [ha]
    · simp only [ha, false_or, if_false]

theorem Memory.wf_writeCells {size : Nat} {cells : Memory α} (hcells : ∀ c ∈ cells, c.1 < size) {m : Memory α}
    (hm : Memory.wf size m = true) : Memory.wf size (m.writeCells cells) = true := by
  induction cells generalizing m with
  | nil => exact hm
  | cons c cells ih =>
    obtain ⟨hc, hcells⟩ := List.forall_mem_cons.mp hcells
    exact ih hcells (Memory.wf_write c.2 hm hc)

/-- Stores that reach every index below `n` and no other leave what the table of their values leaves: both memories are
canonical and read alike. -/
theorem Memory.writeCells_eq_writeTable {size n : Nat} {g : Nat → α} {m cells : Memory α}
    (hm : Memory.wf size m = true) (hn : n ≤ size) (hg : ∀ c ∈ cells, c.1 < n ∧ c.2 = g c.1)
    (hall : ∀ a, a < n → a ∈ cells.map Prod.fst) : m.writeCells cells = m.writeTable ((List.range n).map g) := by
  refine Memory.ext_of_wf (Memory.wf_writeCells (fun c hc => (hg c hc).1.trans_le hn) hm)
    (Memory.wf_writeTable hm (by simpa using hn)) fun a => ?_
  have hmem : a ∈ cells.map Prod.fst ↔ a < n := by
    refine ⟨fun ha => ?_, hall a⟩
    obtain ⟨c, hc, rfl⟩ := List.mem_map.mp ha
    exact (hg c hc).1
  rw [Memory.read_writeCells fun c hc => (hg c hc).2, Memory.read_writeTable]
  by_cases ha : a < n <;> simp [hmem, ha]

/-- A loop that sets the bits of the rows that meet a condition packs them (spec/40_bitcolumn.md R57). -/
theorem foldl_setBit_eq_pack (p : Nat → Prop) [DecidablePred p] :
    (List.range 8).foldl (fun (b : Byte) i => if p i then b ||| BitVec.twoPow 8 i else b) 0
      = pack fun i => decide (p i) := by
  refine congrArg (fun f => (List.range 8).foldl f 0) (funext₂ fun b i => ?_)
  by_cases h : p i <;> simp [bitAt, h]

end Sys2Proof.Machine
end

