-- ==== Sys2Proof/Proofs/FrameCodec.lean ====
section
/-! PROOF. The commands of the frame unit (spec/41_framecodec.md R66 to R72). -/

namespace Sys2Proof.Machine

/-! ## The two results, element by element (R66, R68) -/

/-- What `FENC` leaves of a frame of 128 by 64 (`exec_fenc`). -/
def State.encoded (s : State) : State :=
  { s with pkd := s.pkd.writeTable ((List.range 1024).map (encodeFrame s.frame s.thresh)), len := 1024 }

/-- What `FDEC` leaves of 1024 packed bytes (`exec_fdec`). -/
def State.decoded (s : State) : State :=
  { s with
    pix := s.pix.writeTable ((List.range 8192).map fun a => decodeFrame s.pkdAt (a / 128) (a % 128))
    height := 64, width := 128 }

theorem exec_fenc {s : State} (hw : s.width = 128) (hh : s.height = 64) : exec .fenc s = .next s.encoded :=
  execFenc_of_dims (congrArg BitVec.toNat hw) (congrArg BitVec.toNat hh)

theorem exec_fdec {s : State} (hl : s.len = 1024) : exec .fdec s = .next s.decoded :=
  execFdec_of_len (congrArg BitVec.toNat hl)

theorem State.encoded_pkdAt (s : State) {k : Nat} (hk : k < 1024) :
    s.encoded.pkdAt k = encodeFrame s.frame s.thresh k := by
  rw [State.pkdAt_of_table (s := s) rfl (by simpa using hk), List.getElem_map, List.getElem_range]

theorem State.decoded_pixAt (s : State) {a : Nat} (ha : a < 8192) :
    s.decoded.pixAt a = decodeFrame s.pkdAt (a / 128) (a % 128) := by
  rw [State.pixAt_of_table (s := s) rfl (by simpa using ha), List.getElem_map, List.getElem_range]

/-- Bit `i` of a packed byte is the darkness of row `8*band + i` (R66). -/
theorem State.encoded_bit (s : State) {band col i : Nat} (hb : band < 8) (hc : col < 128) (hi : i < 8) :
    (s.encoded.pkdAt (band * 128 + col)).getLsbD i
      = decide ((s.pixAt ((8 * band + i) * 128 + col)).toNat < s.thresh.toNat) := by
  rw [s.encoded_pkdAt (by omega), getLsbD_encodeFrame _ _ _ hc hi]
  rfl

/-- The value of a cell of row `8*band + i` from the packed bytes `K` (R68). -/
theorem decodeFrame_cell (K : Nat → Byte) (band : Nat) {col i : Nat} (hc : col < 128) (hi : i < 8) :
    decodeFrame K (((8 * band + i) * 128 + col) / 128) (((8 * band + i) * 128 + col) % 128)
      = unpack (K (band * 128 + col)) i := by
  obtain ⟨hdiv, hmod⟩ := band_col_div (8 * band + i) hc
  rw [hdiv, hmod, decodeFrame_strip K band col hi]

theorem State.decoded_cell (s : State) {band col i : Nat} (hb : band < 8) (hc : col < 128) (hi : i < 8) :
    s.decoded.pixAt ((8 * band + i) * 128 + col) = unpack (s.pkdAt (band * 128 + col)) i := by
  rw [s.decoded_pixAt (by omega), decodeFrame_cell _ _ hc hi]

/-- Settles O10: `FENC` tabulates the encoded frame, whose bits are the darkness compares. -/
theorem fencPacksDarkCells : Obligations.FencPacksDarkCells := fun s hw hh =>
  ⟨s.encoded, exec_fenc hw hh, rfl, fun _ _ _ => s.encoded_bit⟩

/-- Settles O11: `FDEC` tabulates the decoded frame, whose cells are the unpacked lanes. -/
theorem fdecUnpacksBytesIntoCells : Obligations.FdecUnpacksBytesIntoCells := fun s hl =>
  ⟨s.decoded, exec_fdec hl, rfl, fun _ _ _ => s.decoded_cell⟩

/-! ## FENC's pseudocode (R67) -/

theorem fencStripLoop_eq (s : State) (band : Nat) {col : Nat} (hc : col < 128) :
    fencStripLoop s band col = encodeFrame s.frame s.thresh (band * 128 + col) := by
  obtain ⟨hdiv, hmod⟩ := band_col_div band hc
  rw [fencStripLoop, foldl_setBit_eq_pack, encodeFrame, hdiv, hmod]
  rfl

/-- The cells `FENC`'s loops store, in their order. -/
def State.fencCells (s : State) : Memory Byte :=
  (List.range 8).flatMap fun band => (List.range 128).map fun col => (band * 128 + col, fencStripLoop s band col)

/-- The loops read no byte of `PKD`, so they store the cells of the state they started from. The lists they run
over do not matter and are generalised. -/
theorem fencLoop_of_dims {s : State} (hw : s.width.toNat = 128) (hh : s.height.toNat = 64) :
    fencLoop s = { s with pkd := s.pkd.writeCells s.fencCells, len := 1024 } := by
  rw [fencLoop, if_neg (not_not.mpr hw), if_neg (not_not.mpr hh), Memory.writeCells, State.fencCells,
    List.foldl_flatMap]
  generalize List.range 8 = bands, List.range 128 = cols
  refine congrArg (fun t : State => { t with len := 1024 })
    (List.foldl_hom (fun m => { s with pkd := m }) fun m band => ?_)
  rw [List.foldl_map]
  refine List.foldl_hom (fun m => { s with pkd := m }) fun m col => ?_
  rfl

theorem writeCells_fencCells {s : State} (hm : Memory.wf 1024 s.pkd = true) :
    s.pkd.writeCells s.fencCells = s.pkd.writeTable ((List.range 1024).map (encodeFrame s.frame s.thresh)) := by
  refine Memory.writeCells_eq_writeTable hm (Nat.le_refl _) ?_ fun k hk => ?_
  · simp only [State.fencCells, List.mem_flatMap, List.mem_map, List.mem_range]
    rintro _ ⟨band, hb, col, hc, rfl⟩
    exact ⟨by omega, fencStripLoop_eq s band hc⟩
  · simp only [State.fencCells, List.map_flatMap, List.map_map, List.mem_flatMap, List.mem_map, List.mem_range,
      Function.comp_apply]
    exact ⟨k / 128, by omega, k % 128, by omega, by omega⟩

/-- Settles O12: the two checks agree, and past them the loops store the cells of the one table. -/
theorem fencRefinesItsPseudocode : Obligations.FencRefinesItsPseudocode := by
  refine ⟨by decide, fun s hs => ?_⟩
  by_cases hw : s.width.toNat = 128
  · by_cases hh : s.height.toNat = 64
    · rw [fencLoop_of_dims hw hh, writeCells_fencCells hs.pkd]
      exact execFenc_of_dims hw hh
    · rw [fencLoop, if_neg (not_not.mpr hw), if_pos hh]
      exact execFenc_of_wrong_dims (.inr hh)
  · rw [fencLoop, if_pos hw]
    exact execFenc_of_wrong_dims (.inl hw)

/-! ## FDEC's pseudocode (R69) -/

/-- The cells `FDEC`'s loops store, in their order. -/
def State.fdecCells (s : State) : Memory Byte :=
  (List.range 8).flatMap fun band => (List.range 128).flatMap fun col => (List.range 8).map fun i =>
    ((8 * band + i) * 128 + col, unpack (s.pkdAt (band * 128 + col)) i)

/-- The loops read no cell of `PIX`, so they store the cells of the state they started from (as for `FENC`). -/
theorem fdecLoop_of_len {s : State} (hl : s.len.toNat = 1024) :
    fdecLoop s = { s with pix := s.pix.writeCells s.fdecCells, height := 64, width := 128 } := by
  rw [fdecLoop, if_neg (not_not.mpr hl), Memory.writeCells, State.fdecCells, List.foldl_flatMap]
  generalize List.range 8 = lanes, List.range 128 = cols
  refine congrArg (fun t : State => { t with height := 64, width := 128 })
    (List.foldl_hom (fun m => { s with pix := m }) fun m band => ?_)
  rw [List.foldl_flatMap]
  refine List.foldl_hom (fun m => { s with pix := m }) fun m col => ?_
  rw [List.foldl_map]
  refine List.foldl_hom (fun m => { s with pix := m }) fun m i => ?_
  rfl

theorem writeCells_fdecCells {s : State} (hm : Memory.wf 8192 s.pix = true) :
    s.pix.writeCells s.fdecCells
      = s.pix.writeTable ((List.range 8192).map fun a => decodeFrame s.pkdAt (a / 128) (a % 128)) := by
  refine Memory.writeCells_eq_writeTable hm (Nat.le_refl _) ?_ fun a ha => ?_
  · simp only [State.fdecCells, List.mem_flatMap, List.mem_map, List.mem_range]
    rintro _ ⟨band, hb, col, hc, i, hi, rfl⟩
    exact ⟨by omega, (decodeFrame_cell _ _ hc hi).symm⟩
  · simp only [State.fdecCells, List.map_flatMap, List.map_map, List.mem_flatMap, List.mem_map, List.mem_range,
      Function.comp_apply]
    exact ⟨a / 1024, by omega, a % 128, by omega, a / 128 % 8, by omega, by omega⟩

/-- Settles O13: the length check agrees, and past it the loops store the cells of the one table. -/
theorem fdecRefinesItsPseudocode : Obligations.FdecRefinesItsPseudocode := by
  refine ⟨by decide, fun s hs => ?_⟩
  by_cases hl : s.len.toNat = 1024
  · rw [fdecLoop_of_len hl, writeCells_fdecCells hs.pix]
    exact execFdec_of_len hl
  · rw [fdecLoop, if_pos hl]
    exact execFdec_of_wrong_len hl

/-! ## The round trips (R70) -/

theorem execAll_pair {i j : Instr} {s t u : State} (hi : exec i s = .next t) (hj : exec j t = .next u) :
    execAll [i, j] s = .next u := by
  simp only [execAll, hi, hj]

/-- A cell comes back light iff it was dark. -/
theorem State.encoded_decoded_pixAt (s : State) {r c : Nat} (hr : r < 64) (hc : c < 128) :
    s.encoded.decoded.pixAt (r * 128 + c)
      = if (s.pixAt (r * 128 + c)).toNat < s.thresh.toNat then 0xFF else 0x00 := by
  have hb : r / 8 < 8 := by omega
  have hi : r % 8 < 8 := by omega
  have hcell := s.encoded.decoded_cell hb hc hi
  rw [unpack_eq, s.encoded_bit hb hc hi, Nat.div_add_mod] at hcell
  simpa using hcell

/-- A byte comes back with its clear bits set, for those lanes are dark under every threshold but 0. -/
theorem State.decoded_encoded_pkdAt (s : State) {k : Nat} (hk : k < 1024) :
    s.decoded.encoded.pkdAt k = if s.thresh = 0 then 0x00 else s.pkdAt k ^^^ 0xFF := by
  have hb : k / 128 < 8 := by omega
  have hc : k % 128 < 128 := by omega
  apply BitVec.eq_of_getLsbD_eq
  intro i hi
  have hbit := s.decoded.encoded_bit hb hc hi
  rw [s.decoded_cell hb hc hi, Nat.div_add_mod'] at hbit
  rw [hbit, show s.decoded.thresh = s.thresh from rfl]
  by_cases ht : s.thresh = 0
  · simp [ht]
  · have hpos : 0 < s.thresh.toNat := by bv_omega
    rw [if_neg ht, show s.pkdAt k ^^^ 0xFF = ~~~s.pkdAt k from BitVec.xor_allOnes, BitVec.getLsbD_not,
      decide_eq_true hi, Bool.true_and, Bool.eq_iff_iff, decide_eq_true_iff, Bool.not_eq_true',
      unpack_toNat_lt _ _ _ hpos (by omega)]

/-- Settles O14: what the second command reads is what the first one stored, element by element. -/
theorem frameRoundTripComplements : Obligations.FrameRoundTripComplements := by
  refine ⟨fun s hw hh => ⟨s.encoded.decoded, execAll_pair (exec_fenc hw hh) (exec_fdec rfl), fun r c hr hc => ?_⟩,
    fun s hl => ⟨s.decoded.encoded, execAll_pair (exec_fdec hl) (exec_fenc rfl rfl),
      fun _ => s.decoded_encoded_pkdAt⟩⟩
  have hcell := s.encoded_decoded_pixAt hr hc
  refine ⟨hcell, fun ht => ?_⟩
  rw [hcell, ht]
  by_cases hdark : (s.pixAt (r * 128 + c)).toNat < 128 <;> simp [hdark]

/-! ## The bulk commands and the bit-column registers (R72) -/

/-- The state with other values in the bit-column registers. -/
def State.withBitColumn (s : State) (cin pb : Byte) (cout : Vector Byte 8) (rsel : BitVec 3) : State :=
  { s with cin := cin, pb := pb, cout := cout, rsel := rsel }

/-- A bulk command commutes with any change of these registers, on each of its paths: neither a check nor a table nor a
fault entry looks at them. -/
theorem exec_withBitColumn {i : Instr} (hi : i = .fenc ∨ i = .fdec ∨ i = .gscan ∨ i = .cmap) (s : State) :
    ∃ t, exec i s = .next t ∧ ∀ cin pb cout rsel,
      exec i (s.withBitColumn cin pb cout rsel) = .next (t.withBitColumn cin pb cout rsel) := by
  rcases hi with rfl | rfl | rfl | rfl
  -- FENC, FDEC, GSCAN, CMAP
  · by_cases h : s.width.toNat = 128 ∧ s.height.toNat = 64
    · exact ⟨_, execFenc_of_dims h.1 h.2, fun _ _ _ _ => execFenc_of_dims h.1 h.2⟩
    · have h' : s.width.toNat ≠ 128 ∨ s.height.toNat ≠ 64 := by omega
      exact ⟨_, execFenc_of_wrong_dims h', fun _ _ _ _ => execFenc_of_wrong_dims h'⟩
  · by_cases h : s.len.toNat = 1024
    · exact ⟨_, execFdec_of_len h, fun _ _ _ _ => execFdec_of_len h⟩
    · exact ⟨_, execFdec_of_wrong_len h, fun _ _ _ _ => execFdec_of_wrong_len h⟩
  · by_cases hh : s.height.toNat = 8
    · rcases Nat.lt_or_ge 1024 s.width.toNat with hw | hw
      · exact ⟨_, execGscan_of_wide_sheet hh hw, fun _ _ _ _ => execGscan_of_wide_sheet hh hw⟩
      · exact ⟨_, execGscan_of_sheet hh hw, fun _ _ _ _ => execGscan_of_sheet hh hw⟩
    · exact ⟨_, execGscan_of_wrong_height hh, fun _ _ _ _ => execGscan_of_wrong_height hh⟩
  · exact ⟨_, rfl, fun _ _ _ _ => rfl⟩

/-- Settles O15: the result for the registers' own values shows that they stay. -/
theorem bulkCommandsIgnoreBitColumnRegisters : Obligations.BulkCommandsIgnoreBitColumnRegisters := by
  intro i s hi
  obtain ⟨t, ht, hany⟩ := exec_withBitColumn hi s
  have hkeep : t = t.withBitColumn s.cin s.pb s.cout s.rsel :=
    Host.Outcome.next.inj (ht.symm.trans (hany s.cin s.pb s.cout s.rsel))
  have hpb : t.pb = s.pb := (congrArg State.pb hkeep :)
  have hrsel : t.rsel = s.rsel := (congrArg State.rsel hkeep :)
  exact ⟨t, ht, (congrArg State.cin hkeep :), hpb, (congrArg State.cout hkeep :), hrsel, State.sout_congr hpb hrsel,
    State.spix_congr hpb hrsel, hany⟩

end Sys2Proof.Machine
end

