-- ==== Sys2Proof/Proofs/GlyphScan.lean ====
section
/-! PROOF. The glyph scan unit (spec/42_glyph.md R73 to R77, R82). -/

namespace Sys2Proof.Machine

/-! ## How far a scan grows (R75; spec/30_encoding.md R53) -/

/-- The bounds of a scan after at most `n` columns and closes, for each adds at most one byte or one offset. -/
structure Scan.Within (n : Nat) (sc : Scan) : Prop where
  bytes_le : sc.bytes.length ≤ n
  offsets_pos : 0 < sc.offsets.length
  offsets_le : sc.offsets.length ≤ n + 1
  offset_le : ∀ o ∈ sc.offsets, o ≤ n

theorem Scan.within_start : Scan.start.Within 0 := ⟨by decide, by decide, by decide, by decide⟩

theorem Scan.Within.mono {n k : Nat} {sc : Scan} (h : sc.Within n) (hk : n ≤ k) : sc.Within k :=
  ⟨h.bytes_le.trans hk, h.offsets_pos, h.offsets_le.trans (by omega), fun o ho => (h.offset_le o ho).trans hk⟩

theorem Scan.Within.close {n : Nat} {sc : Scan} (h : sc.Within n) : sc.close.Within (n + 1) := by
  by_cases hb : sc.bytes.length = sc.lastOffset
  · rw [sc.close_of_eq hb]
    exact h.mono (Nat.le_succ n)
  · have hbytes := h.bytes_le
    have hoffsets := h.offsets_le
    rw [sc.close_of_ne hb]
    refine ⟨hbytes.trans (Nat.le_succ n), by simp, by simpa using hoffsets, fun o ho => ?_⟩
    rcases List.mem_append.mp ho with ho | ho
    · exact (h.offset_le o ho).trans (Nat.le_succ n)
    · rw [List.mem_singleton.mp ho]; omega

theorem Scan.Within.column {n : Nat} {sc : Scan} (h : sc.Within n) (b : Byte) : (sc.column b).Within (n + 1) := by
  by_cases hb : b = 0
  · rw [hb, Scan.column_zero]
    exact h.close
  · have hbytes := h.bytes_le
    rw [sc.column_nonzero hb]
    exact ⟨by simpa using hbytes, h.offsets_pos, h.offsets_le.trans (by omega),
      fun o ho => (h.offset_le o ho).trans (Nat.le_succ n)⟩

theorem Scan.within_foldl_column {n : Nat} {sc : Scan} (h : sc.Within n) (columns : List Byte) :
    (columns.foldl Scan.column sc).Within (n + columns.length) := by
  induction columns generalizing n sc with
  | nil => exact h
  | cons b columns ih =>
    rw [List.length_cons, Nat.add_comm columns.length 1, ← Nat.add_assoc]
    exact ih (h.column b)

theorem within_scan (columns : List Byte) : (scan columns).Within (columns.length + 1) := by
  have h := Scan.within_foldl_column Scan.within_start columns
  rw [Nat.zero_add] at h
  exact h.close

/-! ## What a scan stores (R76, R82) -/

/-- The state with a scan's lists stored from index 0 of `GBYTES` and `GOFFS`. -/
def State.storeScan (s : State) (sc : Scan) : State :=
  { s with gbytes := s.gbytes.writeTable sc.bytes, goffs := s.goffs.writeTable (sc.offsets.map (BitVec.ofNat 16)) }

/-- The state with a finished scan: its lists, their lengths and the verdict (`exec_gscan`). -/
def State.scanned (s : State) (sc : Scan) : State :=
  { s.storeScan sc with
    gbcnt := BitVec.ofNat 16 sc.bytes.length
    gocnt := BitVec.ofNat 16 sc.offsets.length
    gwarn := glyphWarn s.cslen sc.offsets.length }

theorem exec_gscan {s : State} (hh : s.height.toNat = 8) (hw : s.width.toNat ≤ 1024) :
    exec .gscan s = .next (s.scanned (scan s.glyphColumns)) :=
  execGscan_of_sheet hh hw

theorem State.glyphColumns_length (s : State) : s.glyphColumns.length = s.width.toNat := by
  rw [State.glyphColumns, List.length_map, List.length_range]

section
variable {s : State} {sc : Scan} {n : Nat} (hsc : sc.Within n) (hn : n < 65535)
include hsc hn

theorem State.scanned_gbcnt : (s.scanned sc).gbcnt.toNat = sc.bytes.length :=
  Nat.mod_eq_of_lt (hsc.bytes_le.trans_lt (by omega))

theorem State.scanned_gocnt : (s.scanned sc).gocnt.toNat = sc.offsets.length :=
  Nat.mod_eq_of_lt (hsc.offsets_le.trans_lt (by omega))

theorem State.storeScan_goffsAt {k : Nat} (hk : k < sc.offsets.length) :
    ((s.storeScan sc).goffsAt k).toNat = sc.offsets[k] := by
  rw [State.goffsAt_of_table (s := s) rfl (by simpa using hk), List.getElem_map, BitVec.toNat_ofNat]
  exact Nat.mod_eq_of_lt ((hsc.offset_le _ (List.getElem_mem hk)).trans_lt (by omega))

end

/-! ## The effect of GSCAN (R73, R74, R82) -/

/-- A packed byte of the conditioned bitmap: bit `i` is the darkness of a cell of the rotated sheet (R73, R74). -/
theorem State.glyphColumn_bit (s : State) (c : Nat) {i : Nat} (hi : i < 8) : (s.glyphColumn c).getLsbD i
    = decide ((s.pixAt ((7 - i) * s.width.toNat + (s.width.toNat - 1 - c))).toNat < 128) := by
  rw [State.glyphColumn, getLsbD_pack _ hi, State.conditioned, isDark_eq]
  rfl

/-- The bits determine the columns. -/
theorem State.eq_glyphColumns {s : State} {columns : List Byte} (hlen : columns.length = s.width.toNat)
    (hbits : ∀ c i, (h : c < columns.length) → i < 8 → columns[c].getLsbD i
      = decide ((s.pixAt ((7 - i) * s.width.toNat + (s.width.toNat - 1 - c))).toNat < 128)) :
    columns = s.glyphColumns := by
  refine List.ext_getElem (by rw [hlen, s.glyphColumns_length]) fun c hc _ => ?_
  refine BitVec.eq_of_getLsbD_eq fun i hi => ?_
  simp only [State.glyphColumns, List.getElem_map, List.getElem_range]
  rw [hbits c i hc hi, s.glyphColumn_bit c hi]

/-- Settles O16: the given columns are the sheet's, and the two tables hold the lists of their scan. -/
theorem gscanStoresTheScanOfTheRotatedSheet : Obligations.GscanStoresTheScanOfTheRotatedSheet := by
  intro s columns hh hw hlen hbits
  obtain rfl := State.eq_glyphColumns hlen hbits
  have hsc := within_scan s.glyphColumns
  have hn : s.glyphColumns.length + 1 < 65535 := by omega
  have hbc := State.scanned_gbcnt (s := s) hsc hn
  have hoc := State.scanned_gocnt (s := s) hsc hn
  refine ⟨_, exec_gscan (congrArg BitVec.toNat hh) hw, rfl, hbc, hoc, fun k hk => ?_, fun k hk => ?_,
    fun k hk => ?_, fun k hk => ?_⟩
  · exact State.gbytesAt_of_table (s := s) rfl hk
  · exact State.storeScan_goffsAt hsc hn hk
  · exact State.gbytesAt_beyond_table (s := s) (t := s.scanned _) rfl rfl (hbc ▸ hk)
  · exact State.goffsAt_beyond_table (s := s) (t := s.scanned _) rfl rfl (by rwa [List.length_map, ← hoc])

/-! ## The warning (R77) -/

/-- Only a successful scan writes `GWARN`. -/
theorem exec_keeps_gwarn {i : Instr} {s t : State} (hi : i ≠ .gscan) (h : exec i s = .next t) :
    t.gwarn = s.gwarn := by
  obtain ⟨-, rfl⟩ | ⟨-, rfl⟩ | ⟨-, rfl⟩ | ⟨_, -, rfl⟩ | ⟨-, rfl⟩ | ⟨-, -, rfl⟩ | ⟨-, -, -, rfl⟩ | ⟨-, -, rfl⟩ |
    ⟨-, -, rfl⟩ | ⟨-, -, rfl⟩ | ⟨-, -, -, rfl⟩ | ⟨hg, -, -, rfl⟩ | ⟨-, rfl⟩ := exec_cases h
  -- the bit-column unit, then FENC, FDEC, GSCAN and CMAP
  exacts [rfl, rfl, rfl, rfl, rfl, rfl, rfl, rfl, rfl, rfl, rfl, absurd hg hi, rfl]

/-- Settles O18: the count register holds the number of offsets, so the verdict is about `GOCNT`. -/
theorem gwarnIsTheGlyphCountVerdict : Obligations.GwarnIsTheGlyphCountVerdict := by
  refine ⟨fun s hh hw => ?_, fun _ _ _ => exec_keeps_gwarn, fun _ _ => rfl,
    fun s v hs => hostWrite_reg hs (r := .cslen) rfl (by decide) v⟩
  have hlen := s.glyphColumns_length
  refine ⟨_, exec_gscan (congrArg BitVec.toNat hh) hw, ?_, rfl, rfl⟩
  rw [State.scanned_gocnt (within_scan s.glyphColumns) (by omega)]
  exact decide_eq_true_iff

/-! ## GSCAN's pseudocode (R76) -/

section
variable {α : Type}

/-- A canonical memory is canonical in a larger space too. -/
theorem Memory.risingFrom_mono_hi {hi hi' lo : Nat} {m : Memory α} (h : hi ≤ hi')
    (hm : Memory.risingFrom hi lo m = true) : Memory.risingFrom hi' lo m = true := by
  induction m generalizing lo with
  | nil => rfl
  | cons c m ih =>
    simp only [Memory.risingFrom, Bool.and_eq_true, decide_eq_true_eq] at hm ⊢
    obtain ⟨⟨hlo, hhi⟩, hrest⟩ := hm
    exact ⟨⟨hlo, hhi.trans_le h⟩, ih hrest⟩

theorem Memory.writeTable_nil (m : Memory α) : m.writeTable [] = m := by
  simp [Memory.writeTable, cellsFrom]

/-- Storing the next element extends the table. -/
theorem Memory.write_writeTable {size : Nat} {m : Memory α} (hm : Memory.wf size m = true) (vals : List α) (v : α) :
    (m.writeTable vals).write vals.length v = m.writeTable (vals ++ [v]) := by
  have hm' : Memory.wf (size + (vals.length + 1)) m = true := Memory.risingFrom_mono_hi (by omega) hm
  refine Memory.ext_of_wf (Memory.wf_write v (Memory.wf_writeTable hm' (by omega)) (by omega))
    (Memory.wf_writeTable hm' (by simp)) fun a => ?_
  rw [Memory.read_write, Memory.read_writeTable, Memory.read_writeTable, List.length_append, List.length_singleton]
  rcases Nat.lt_trichotomy a vals.length with ha | rfl | ha
  · rw [if_neg (by omega), if_pos ha, if_pos (by omega), List.getElem?_append_left ha]
  · simp
  · rw [if_neg (by omega), if_neg (by omega), if_neg (by omega)]

end

/-- The loop's state when it has stored the scan `sc` so far: `n` and `m` are the lists' lengths. -/
def State.scanLocals (s : State) (sc : Scan) : ScanLocals := ⟨s.storeScan sc, sc.bytes.length, sc.offsets.length⟩

theorem State.storeScan_byte {s : State} (hs : BlockInv s) (sc : Scan) (b : Byte) :
    (s.storeScan sc).setGbytes sc.bytes.length b = s.storeScan ⟨sc.bytes ++ [b], sc.offsets⟩ := by
  simp only [State.storeScan, State.setGbytes, Memory.write_writeTable hs.gbytes]

theorem State.storeScan_offset {s : State} (hs : BlockInv s) (sc : Scan) (o : Nat) :
    (s.storeScan sc).setGoffs sc.offsets.length (BitVec.ofNat 16 o) = s.storeScan ⟨sc.bytes, sc.offsets ++ [o]⟩ := by
  have h := Memory.write_writeTable hs.goffs (sc.offsets.map (BitVec.ofNat 16)) (BitVec.ofNat 16 o)
  rw [List.length_map] at h
  simp only [State.storeScan, State.setGoffs, h, List.map_append, List.map_singleton]

theorem State.storeScan_start {s : State} (hs : BlockInv s) : s.setGoffs 0 0 = s.storeScan Scan.start := by
  have h := Memory.write_writeTable hs.goffs [] 0
  rw [Memory.writeTable_nil, List.length_nil] at h
  simp only [State.storeScan, State.setGoffs, Scan.start, Memory.writeTable_nil, h]
  rfl

/-- `GOFFS[m-1]` is the last offset recorded. -/
theorem State.storeScan_lastOffset {s : State} {sc : Scan} {n : Nat} (hsc : sc.Within n) (hn : n < 65535) :
    ((s.storeScan sc).goffsAt (sc.offsets.length - 1)).toNat = sc.lastOffset := by
  have hpos := hsc.offsets_pos
  rw [State.storeScan_goffsAt hsc hn (by omega), Scan.lastOffset, List.getLastD_eq_getLast?,
    List.getLast?_eq_getElem?, List.getElem?_eq_getElem (by omega), Option.getD_some]

theorem gscanCloseLoop_scanLocals {s : State} (hs : BlockInv s) {sc : Scan} {n : Nat} (hsc : sc.Within n)
    (hn : n < 65535) : gscanCloseLoop (s.scanLocals sc) = s.scanLocals sc.close := by
  simp only [gscanCloseLoop, State.scanLocals, State.storeScan_lastOffset hsc hn]
  by_cases h : sc.bytes.length = sc.lastOffset
  · rw [if_neg (not_not.mpr h), sc.close_of_eq h]
  · rw [if_pos h, sc.close_of_ne h, State.storeScan_offset hs, List.length_append, List.length_singleton]

/-- The byte the inner loop packs is the conditioned bitmap's: the stores so far do not touch `PIX`. -/
theorem gscanColumnLoop_storeScan (s : State) (sc : Scan) (c : Nat) :
    gscanColumnLoop (s.storeScan sc) s.width.toNat c = s.glyphColumn c := by
  rw [gscanColumnLoop, foldl_setBit_eq_pack]
  rfl

/-- One round of the loop over the columns (R76). -/
def gscanRound (w : Nat) (x : ScanLocals) (c : Nat) : ScanLocals :=
  let b := gscanColumnLoop x.s w c
  if b = 0 then gscanCloseLoop x else ⟨x.s.setGbytes x.n (b &&& 0xFE), x.n + 1, x.m⟩

theorem gscanRound_scanLocals {s : State} (hs : BlockInv s) {sc : Scan} {n : Nat} (hsc : sc.Within n)
    (hn : n < 65535) (c : Nat) :
    gscanRound s.width.toNat (s.scanLocals sc) c = s.scanLocals (sc.column (s.glyphColumn c)) := by
  have hb : gscanColumnLoop (s.scanLocals sc).s s.width.toNat c = s.glyphColumn c := gscanColumnLoop_storeScan s sc c
  rw [gscanRound, hb]
  by_cases h : s.glyphColumn c = 0
  · rw [if_pos h, h, Scan.column_zero, gscanCloseLoop_scanLocals hs hsc hn]
  · rw [if_neg h, sc.column_nonzero h]
    simp only [State.scanLocals, State.storeScan_byte hs, List.length_append, List.length_singleton]

/-- The loop over columns scans them. -/
theorem foldl_gscanRound {s : State} (hs : BlockInv s) {sc : Scan} {n : Nat} (hsc : sc.Within n) (cs : List Nat)
    (hn : n + cs.length < 65535) :
    cs.foldl (gscanRound s.width.toNat) (s.scanLocals sc)
      = s.scanLocals ((cs.map s.glyphColumn).foldl Scan.column sc) := by
  induction cs generalizing n sc with
  | nil => rfl
  | cons c cs ih =>
    rw [List.length_cons] at hn
    rw [List.foldl_cons, gscanRound_scanLocals hs hsc (by omega), ih (hsc.column _) (by omega)]
    rfl

/-- The end of the pseudocode: the counts and the warning. -/
def ScanLocals.finish (x : ScanLocals) : State :=
  { x.s with
    gbcnt := BitVec.ofNat 16 x.n, gocnt := BitVec.ofNat 16 x.m, gwarn := decide (x.s.cslen.toNat + 1 ≠ x.m) }

theorem gscanLoop_eq {s : State} (hh : s.height.toNat = 8) (hw : s.width.toNat ≤ 1024) :
    gscanLoop s = (gscanCloseLoop
      ((List.range s.width.toNat).foldl (gscanRound s.width.toNat) ⟨s.setGoffs 0 0, 0, 1⟩)).finish := by
  rw [gscanLoop, if_neg (not_not.mpr hh), if_neg (by omega)]
  rfl

theorem State.finish_scanLocals (s : State) (sc : Scan) : (s.scanLocals sc).finish = s.scanned sc := by
  have hwarn : decide (s.cslen.toNat + 1 ≠ sc.offsets.length) = glyphWarn s.cslen sc.offsets.length :=
    decide_eq_decide.mpr (by omega)
  rw [State.scanned, ← hwarn]
  rfl

theorem gscanLoop_of_sheet {s : State} (hs : BlockInv s) (hh : s.height.toNat = 8) (hw : s.width.toNat ≤ 1024) :
    gscanLoop s = s.scanned (scan s.glyphColumns) := by
  have hlen := s.glyphColumns_length
  rw [gscanLoop_eq hh hw, State.storeScan_start hs]
  calc
    _ = (gscanCloseLoop (s.scanLocals (s.glyphColumns.foldl Scan.column Scan.start))).finish :=
      congrArg (fun x => (gscanCloseLoop x).finish)
        (foldl_gscanRound hs Scan.within_start _ (by simp only [List.length_range]; omega))
    _ = (s.scanLocals (scan s.glyphColumns)).finish :=
      congrArg _ (gscanCloseLoop_scanLocals hs (Scan.within_foldl_column Scan.within_start _) (by omega))
    _ = _ := s.finish_scanLocals _

/-- Settles O17: the two checks agree, and past them the loop keeps the tables equal to the lists scanned so far. -/
theorem gscanRefinesItsPseudocode : Obligations.GscanRefinesItsPseudocode := by
  refine ⟨by decide, fun s hs => ?_⟩
  by_cases hh : s.height.toNat = 8
  · rcases Nat.lt_or_ge 1024 s.width.toNat with hw | hw
    · rw [gscanLoop, if_neg (not_not.mpr hh), if_pos hw]
      exact execGscan_of_wide_sheet hh hw
    · rw [gscanLoop_of_sheet hs hh hw]
      exact exec_gscan hh hw
  · rw [gscanLoop, if_pos hh]
    exact execGscan_of_wrong_height hh

end Sys2Proof.Machine
end

