-- ==== Sys2Proof/Proofs/Charmap.lean ====
section
/-! PROOF. The charmap unit (spec/42_glyph.md R79, R80). -/

namespace Sys2Proof.Machine

/-! ## The first index in the reversed character set (R79) -/

/-- Character `j` of the reversed character set, `rev[j] = s[L-1-j]` (R79). -/
def State.revChar (s : State) (j : Nat) : Byte := s.charsetAt (s.cslen.toNat - 1 - j)

theorem State.reverse_charString (s : State) : s.charString.reverse = (List.range s.cslen.toNat).map s.revChar := by
  rw [State.charString, ← List.map_reverse, List.range_eq_range', List.reverse_range', List.map_map, Nat.zero_add,
    List.range_eq_range']
  rfl

/-- The smallest `j` with `rev[j] = c`, if there is one. -/
def State.firstIndex (s : State) (c : Nat) : Option Nat :=
  (List.range s.cslen.toNat).find? fun j => decide ((s.revChar j).toNat = c)

theorem State.firstIndex_eq_some {s : State} {c j : Nat} (hj : j < s.cslen.toNat) (hc : (s.revChar j).toNat = c)
    (hmin : ∀ k, k < j → (s.revChar k).toNat ≠ c) : s.firstIndex c = some j := by
  simpa [State.firstIndex, hj, hc] using hmin

theorem State.firstIndex_eq_none {s : State} {c : Nat} (h : ∀ p, p < s.cslen.toNat → (s.charsetAt p).toNat ≠ c) :
    s.firstIndex c = none := by
  simp only [State.firstIndex, List.find?_range_eq_none, Bool.not_eq_true', decide_eq_false_iff_not]
  exact fun j hj => h _ (by omega)

/-- In a list of the values of `f`, the first index of a value that meets `p` is the first `j` for which `f j` does. -/
theorem findIdx?_map_range {α : Type} (p : α → Bool) (f : Nat → α) (n : Nat) :
    ((List.range n).map f).findIdx? p = (List.range n).find? fun j => p (f j) := by
  cases hf : (List.range n).find? fun j => p (f j) with
  | none => simpa using hf
  | some j => simpa [List.findIdx?_eq_some_iff_getElem, and_left_comm] using hf

/-- The charmap entry of a code `c` (R79). -/
theorem State.charmapEntry_charString (s : State) {c : Nat} (hc : c < 256) :
    charmapEntry s.charString c = (s.firstIndex c).elim 0xFFFF (BitVec.ofNat 16) := by
  have hp : ∀ b : Byte, (b == BitVec.ofNat 8 c) = decide (b.toNat = c) := fun b => by
    rw [Bool.eq_iff_iff, beq_iff_eq, decide_eq_true_iff, ← BitVec.toNat_inj, BitVec.toNat_ofNat, Nat.mod_eq_of_lt hc]
  have hidx : s.charString.reverse.findIdx? (fun x => x == BitVec.ofNat 8 c) = s.firstIndex c := by
    rw [s.reverse_charString, findIdx?_map_range]
    simp only [hp, State.firstIndex]
  rw [charmapEntry, hidx]
  cases s.firstIndex c <;> rfl

/-! ## The effect of CMAP (R79) -/

/-- What `CMAP` leaves (`exec_cmap`). -/
def State.charmapped (s : State) : State :=
  { s with cmaptab := s.cmaptab.writeTable ((List.range 256).map (charmapEntry s.charString)) }

theorem exec_cmap (s : State) : exec .cmap s = .next s.charmapped := rfl

theorem State.charmapped_cmaptabAt (s : State) {c : Nat} (hc : c < 256) :
    s.charmapped.cmaptabAt c = (s.firstIndex c).elim 0xFFFF (BitVec.ofNat 16) := by
  rw [State.cmaptabAt_of_table (s := s) rfl (by simpa using hc), List.getElem_map, List.getElem_range,
    s.charmapEntry_charString hc]

theorem State.charmapped_cmaptabAt_of_first {s : State} {c j : Nat} (hc : c < 256) (hj : j < s.cslen.toNat)
    (hjc : (s.revChar j).toNat = c) (hmin : ∀ k, k < j → (s.revChar k).toNat ≠ c) :
    s.charmapped.cmaptabAt c = BitVec.ofNat 16 j := by
  rw [s.charmapped_cmaptabAt hc, State.firstIndex_eq_some hj hjc hmin, Option.elim_some]

/-- Settles O23: the entry is the first index in the reversed set; the last occurrence `p` has index `L - 1 - p` there. -/
theorem cmapIndexesTheReversedCharset : Obligations.CmapIndexesTheReversedCharset := by
  refine fun s => ⟨s.charmapped, exec_cmap s, rfl, fun c hc =>
    ⟨fun j => State.charmapped_cmaptabAt_of_first hc, fun p hp hpc hlast => ?_, fun habsent => ?_⟩⟩
  · refine State.charmapped_cmaptabAt_of_first hc (by omega) ?_ fun k hk => hlast _ (by omega) (by omega)
    rwa [State.revChar, show s.cslen.toNat - 1 - (s.cslen.toNat - 1 - p) = p by omega]
  · rw [s.charmapped_cmaptabAt hc, State.firstIndex_eq_none habsent, Option.elim_none]

/-! ## CMAP's pseudocode (R80) -/

/-- The loop over `j`, left at the first hit, finds that hit. -/
theorem cmapSearchLoop_eq_find? (s : State) (c : Nat) (js : List Nat) :
    cmapSearchLoop s s.cslen.toNat c js
      = (js.find? fun j => decide ((s.revChar j).toNat = c)).elim 0xFFFF (BitVec.ofNat 16) := by
  induction js with
  | nil => rfl
  | cons j js ih =>
    rw [cmapSearchLoop, ih, List.find?_cons, State.revChar]
    by_cases h : (s.charsetAt (s.cslen.toNat - 1 - j)).toNat = c <;> simp [h]

/-- The search does not look at `CMAPTAB`. -/
theorem cmapSearchLoop_cmaptab (s : State) (m : Memory Half) (l c : Nat) (js : List Nat) :
    cmapSearchLoop { s with cmaptab := m } l c js = cmapSearchLoop s l c js := by
  induction js with
  | nil => rfl
  | cons j js ih => rw [cmapSearchLoop, cmapSearchLoop, ih]; rfl

/-- The cells `CMAP`'s loop stores, in their order. -/
def State.cmapCells (s : State) : Memory Half :=
  (List.range 256).map fun c => (c, cmapSearchLoop s s.cslen.toNat c (List.range s.cslen.toNat))

/-- The loop stores the cells of the state it started from. -/
theorem cmapLoop_eq (s : State) : cmapLoop s = { s with cmaptab := s.cmaptab.writeCells s.cmapCells } := by
  rw [cmapLoop, Memory.writeCells, State.cmapCells, List.foldl_map]
  generalize List.range 256 = codes
  refine List.foldl_hom (fun m => { s with cmaptab := m }) fun m c => ?_
  rw [cmapSearchLoop_cmaptab]
  rfl

/-- Settles O24: the search finds the entry of each code, and the loop stores the cells of the one table. -/
theorem cmapRefinesItsPseudocode : Obligations.CmapRefinesItsPseudocode := by
  refine ⟨by decide, fun s hs => ?_⟩
  rw [exec_cmap, cmapLoop_eq, State.charmapped, State.cmapCells, Memory.writeCells_eq_writeTable hs.cmaptab
    (Nat.le_refl _)]
  · simp only [List.mem_map, List.mem_range]
    rintro _ ⟨c, hc, rfl⟩
    refine ⟨hc, ?_⟩
    rw [cmapSearchLoop_eq_find?, s.charmapEntry_charString hc, State.firstIndex]
  · simp [Function.comp_def]

end Sys2Proof.Machine
end

