-- ==== Sys2Proof/Proofs/Faults.lean ====
section
/-! PROOF. The faults of the commands and the order of their checks (spec/60_exceptions.md R86 to R92, R99). -/

namespace Sys2Proof.Machine

/-! ## Which command raises which fault (R86 to R89, R91) -/

/-- The one command that raises the fault `c`, and its condition on the state (R86 to R89). Command decode alone raises
`illegalCommand` (R90). -/
def Cause.RaisedBy : Cause → Instr → State → Prop
  | .sizeMismatch, i, s => i = .fdec ∧ s.len.toNat ≠ 1024
  | .dimension, i, s => i = .fenc ∧ (s.width.toNat ≠ 128 ∨ s.height.toNat ≠ 64)
  | .glyphHeight, i, s => i = .gscan ∧ s.height.toNat ≠ 8
  | .capacity, i, s => i = .gscan ∧ s.height.toNat = 8 ∧ 1024 < s.width.toNat
  | .illegalCommand, _, _ => False

theorem exec_of_raisedBy {c : Cause} {i : Instr} {s : State} (h : c.RaisedBy i s) : exec i s = .next (s.raise c) := by
  cases c with
  | sizeMismatch => obtain ⟨rfl, hl⟩ := h; exact execFdec_of_wrong_len hl
  | dimension => obtain ⟨rfl, hd⟩ := h; exact execFenc_of_wrong_dims hd
  | glyphHeight => obtain ⟨rfl, hh⟩ := h; exact execGscan_of_wrong_height hh
  | capacity => obtain ⟨rfl, hh, hw⟩ := h; exact execGscan_of_wide_sheet hh hw
  | illegalCommand => exact h.elim

/-- `exec_keeps_halt_or_raises` with the condition of the fault that is raised. -/
theorem exec_keeps_status_or_raisedBy {i : Instr} {s t : State} (h : exec i s = .next t) :
    (t.halt = s.halt ∧ t.err = s.err) ∨ ∃ c : Cause, c.RaisedBy i s ∧ t = s.raise c := by
  obtain ⟨-, rfl⟩ | ⟨-, rfl⟩ | ⟨-, rfl⟩ | ⟨_, -, rfl⟩ | ⟨-, rfl⟩ | ⟨hi, hd, rfl⟩ | ⟨-, -, -, rfl⟩ | ⟨hi, hl, rfl⟩ |
    ⟨-, -, rfl⟩ | ⟨hi, hh, rfl⟩ | ⟨hi, hh, hw, rfl⟩ | ⟨-, -, -, rfl⟩ | ⟨-, rfl⟩ := exec_cases h
  -- the bit-column unit, then FENC, FDEC, GSCAN and CMAP
  exacts [.inl ⟨rfl, rfl⟩, .inl ⟨rfl, rfl⟩, .inl ⟨rfl, rfl⟩, .inl ⟨rfl, rfl⟩, .inl ⟨rfl, rfl⟩,
    .inr ⟨.dimension, ⟨hi, hd⟩, rfl⟩, .inl ⟨rfl, rfl⟩,
    .inr ⟨.sizeMismatch, ⟨hi, hl⟩, rfl⟩, .inl ⟨rfl, rfl⟩,
    .inr ⟨.glyphHeight, ⟨hi, hh⟩, rfl⟩, .inr ⟨.capacity, ⟨hi, hh, hw⟩, rfl⟩, .inl ⟨rfl, rfl⟩,
    .inl ⟨rfl, rfl⟩]

/-- The codes are distinct, so the code in `ERR` tells which check failed. -/
theorem exec_eq_raise_iff (c : Cause) (i : Instr) {s : State} (hs : s.halt = false) :
    exec i s = .next (s.raise c) ↔ c.RaisedBy i s := by
  refine ⟨fun h => ?_, exec_of_raisedBy⟩
  obtain ⟨hhalt, -⟩ | ⟨d, hd, ht⟩ := exec_keeps_status_or_raisedBy h
  · simp [hs] at hhalt
  · have hcode : c.code = d.code := congrArg State.err ht
    rwa [Cause.code_injective hcode]

/-- Settles O40: the state each clause names is the fault entry of its cause. -/
theorem eachFaultHasExactlyItsCondition : Obligations.EachFaultHasExactlyItsCondition := fun i _ hs =>
  ⟨exec_eq_raise_iff .sizeMismatch i hs, exec_eq_raise_iff .dimension i hs, exec_eq_raise_iff .glyphHeight i hs,
    exec_eq_raise_iff .capacity i hs⟩

/-- The commands without a check complete (R91). -/
theorem exec_keeps_status_of_no_check {i : Instr} (hfenc : i ≠ .fenc) (hfdec : i ≠ .fdec) (hgscan : i ≠ .gscan)
    (s : State) : ∃ t, exec i s = .next t ∧ t.halt = s.halt ∧ t.err = s.err := by
  cases i with
  | fenc => exact absurd rfl hfenc
  | fdec => exact absurd rfl hfdec
  | gscan => exact absurd rfl hgscan
  | nop | packc | unpkc | selr | sern | cmap => exact ⟨_, rfl, rfl, rfl⟩

/-- Settles O41: `HALT` is tested first, then the word is decoded, then the command makes its own checks. -/
theorem firstFaultInTheOrderOfChecks : Obligations.FirstFaultInTheOrderOfChecks := by
  refine ⟨fun _ v hs => hostWrite_halted hs _ v, fun s v e hs he => ?_, fun _ => execFenc_of_wrong_dims,
    fun _ => execFdec_of_wrong_len, fun _ => execGscan_of_wrong_height, fun _ => execGscan_of_wide_sheet,
    fun _ s hfenc hfdec hgscan => exec_keeps_status_of_no_check hfenc hfdec hgscan s⟩
  rw [hostWrite_cmd hs, issue_of_error he]

/-! ## What a fault leaves (R92, R99) -/

/-- A word whose issue leaves the block halted has done nothing but fault entry. -/
theorem issue_halts_by_raise {w : BitVec 8} {s t : State} (hs : s.halt = false) (h : issue w s = .next t)
    (ht : t.halt = true) : ∃ c, t = s.raise c := by
  cases hd : decode w with
  | ok i =>
    rw [issue_of_ok hd] at h
    obtain ⟨hhalt, -⟩ | ⟨c, -, hc⟩ := exec_keeps_halt_or_raises h
    · simp [hs, ht] at hhalt
    · exact ⟨c, hc⟩
  | error e =>
    rw [issue_of_error hd, Host.Outcome.next.injEq] at h
    exact ⟨.illegalCommand, h.symm⟩

/-- Settles O42: a command either keeps `HALT` or enters a fault from the state it was issued in. -/
theorem faultingCommandChangesOnlyStatus : Obligations.FaultingCommandChangesOnlyStatus :=
  ⟨fun _ _ => rfl, fun _ _ _ => issue_halts_by_raise⟩

end Sys2Proof.Machine
end

