-- ==== Sys2Proof/Proofs/HaltedBlock.lean ====
section
/-! PROOF. The halted block: nothing but reset changes it, and it is read as before (spec/60_exceptions.md R93). -/

namespace Sys2Proof.Machine

theorem State.halt_congr_block {s t : State} (h : t.block = s.block) : t.halt = s.halt := by
  rw [← t.block_halt, h, s.block_halt]

/-- What a host step gets back does not depend on the host's own fields. -/
theorem replyOf_congr_block {s t : State} (h : t.block = s.block) : replyOf t = replyOf s := by
  funext x
  cases x with
  | read l => exact congrArg some (hostRead_congr_block h l)
  | write l v => rfl
  | reset => rfl

/-- One host step on a halted block, a reset apart: a write is ignored, a read is answered. -/
theorem step_halted {s : State} {x : HostStep} {rest : List HostStep} (hs : s.halt = true)
    (hb : s.inbox = x :: rest) (hx : x ≠ .reset) :
    ∃ t, step s = .next t ∧ t.block = s.block ∧ t.inbox = rest ∧
      t.replies = s.replies ++ [x].filterMap (replyOf s) := by
  rw [step_cons hb]
  cases x with
  | write l v => exact ⟨s.setInbox rest, hostWrite_halted (s := s.setInbox rest) hs l v, rfl, rfl, (List.append_nil _).symm⟩
  | read l => exact ⟨_, rfl, rfl, rfl, rfl⟩
  | reset => exact absurd rfl hx

/-- Any number of host steps without a reset leave a halted block as it is, and are answered from it. -/
theorem runSteps_halted (n : Nat) {s : State} (hs : s.halt = true) (hreset : HostStep.reset ∉ s.inbox.take n) :
    ∃ t, runSteps n s = .next t ∧ t.block = s.block ∧
      t.replies = s.replies ++ (s.inbox.take n).filterMap (replyOf s) := by
  induction n generalizing s with
  | zero => exact ⟨s, rfl, rfl, (List.append_nil _).symm⟩
  | succ n ih =>
    cases hb : s.inbox with
    | nil =>
      rw [runSteps_succ n (step_nil hb)]
      simpa [hb] using ih hs (by simp [hb])
    | cons x rest =>
      rw [hb, List.take_succ_cons, List.mem_cons, not_or] at hreset
      obtain ⟨hx, hrest⟩ := hreset
      obtain ⟨t, hstep, hblock, hinbox, hreplies⟩ := step_halted hs hb (Ne.symm hx)
      have ht : t.halt = true := (State.halt_congr_block hblock).trans hs
      obtain ⟨u, hrun, hublock, hureplies⟩ := ih ht (hinbox ▸ hrest)
      refine ⟨u, (runSteps_succ n hstep).trans hrun, hublock.trans hblock, ?_⟩
      rw [hureplies, hreplies, hinbox, replyOf_congr_block hblock, List.append_assoc, ← List.filterMap_append,
        List.singleton_append, List.take_succ_cons]

/-- Settles O43: by induction on the number of host steps, since the block each of them meets is the halted one. -/
theorem haltedBlockIsFrozenButReadable : Obligations.HaltedBlockIsFrozenButReadable :=
  ⟨fun _ l v hs => hostWrite_halted hs l v, fun n _ => runSteps_halted n⟩

end Sys2Proof.Machine
end

