-- ==== Sys2Proof/Proofs/ResetAndHazards.lean ====
section
/-! PROOF. Reset as the way out of the halted state, and what follows a later parameter write
(spec/70_reset_and_hazards.md R100, R107). -/

namespace Sys2Proof.Machine

/-! ## Reset (R100) -/

/-- A reset is taken in any state, halted or not. -/
theorem step_of_resetsNext {s : State} (h : s.resetsNext) :
    ∃ rest, step s = .next (s.setInbox rest).takeReset := by
  obtain ⟨rest, hb⟩ := List.head?_eq_some_iff.mp h
  exact ⟨rest, step_cons hb⟩

/-- The frozen run of a halted block (R93), read for one step and turned round: what changes the block is a reset. -/
theorem resetsNext_of_halted_of_block_ne {s t : State} (hs : s.halt = true) (h : step s = .next t)
    (hne : t.block ≠ s.block) : s.resetsNext := by
  by_contra hr
  have hreset : HostStep.reset ∉ s.inbox.take 1 := by simpa [State.resetsNext, List.take_one] using hr
  obtain ⟨u, hrun, hblock, -⟩ := runSteps_halted 1 hs hreset
  rw [runSteps_succ 0 h, runSteps_zero, Host.Outcome.next.injEq] at hrun
  exact hne (hrun ▸ hblock)

theorem State.err_congr_block {s t : State} (h : t.block = s.block) : t.err = s.err := by
  rw [← t.block_err, h, s.block_err]

/-- Settles O46: clearing `HALT` or `ERR` changes the block, and under the invariant `ERR` is set only while it is halted. -/
theorem onlyResetLeavesTheHaltedState : Obligations.OnlyResetLeavesTheHaltedState := by
  refine ⟨fun s hr => ?_, fun s t h => ⟨fun hs => resetsNext_of_halted_of_block_ne hs h, fun hs ht => ?_,
    fun hinv herr ht => ?_⟩⟩
  · obtain ⟨rest, hstep⟩ := step_of_resetsNext hr
    exact ⟨_, hstep, rfl, rfl⟩
  · exact resetsNext_of_halted_of_block_ne hs h fun hblock =>
      Bool.false_ne_true (ht.symm.trans ((State.halt_congr_block hblock).trans hs))
  · exact resetsNext_of_halted_of_block_ne (hinv.halt_iff.mpr herr) h fun hblock =>
      herr ((State.err_congr_block hblock).symm.trans ht)

/-! ## Parameter writes (R107) -/

theorem hostWrite_pix {s : State} (h : s.halt = false) (a : BitVec 13) (v : Nat) :
    hostWrite (.pix a) v s = .next (s.setPix a.toNat (BitVec.ofNat 8 v)) := by
  simp [hostWrite, h]

theorem hostWrite_charset {s : State} (h : s.halt = false) (a : BitVec 8) (v : Nat) :
    hostWrite (.charset a) v s = .next (s.setCharset a.toNat (BitVec.ofNat 8 v)) := by
  simp [hostWrite, h]

/-- Settles O48: each write stores its own element; the mux outputs are functions of `PB` and `RSEL`, so they alone follow. -/
theorem parametersAreSampledAtIssue : Obligations.ParametersAreSampledAtIssue := fun _ v hs =>
  ⟨hostWrite_reg (r := .cslen) hs rfl (by decide) v,
    fun a => ⟨_, hostWrite_charset hs a v, rfl⟩,
    fun a => ⟨_, hostWrite_pix hs a v, rfl⟩,
    hostWrite_reg (r := .thresh) hs rfl (by decide) v,
    _, hostWrite_reg (r := .pb) hs rfl (by decide) v, rfl, State.sout_of_rsel rfl, State.spix_of_rsel rfl⟩

end Sys2Proof.Machine
end

