-- ==== Sys2Proof/Proofs/ScanSpans.lean ====
section
/-! PROOF. The scan's two lists as the spans of non-zero columns (spec/42_glyph.md R78), and the bounds that follow
(spec/30_encoding.md R53). -/

namespace Sys2Proof.Machine

/-! ## Splitting a list -/

section
variable {α : Type} (p : α → Bool) (xs : List α)

theorem length_splitOnP : (xs.splitOnP p).length = xs.countP p + 1 := by
  induction xs with
  | nil => rfl
  | cons x xs ih =>
    rw [List.splitOnP_cons_eq_if_modifyHead, List.countP_cons]
    by_cases hx : p x = true <;> simp [hx, ih]

theorem flatten_splitOnP : (xs.splitOnP p).flatten = xs.filter fun x => !p x := by
  induction xs with
  | nil => rfl
  | cons x xs ih =>
    rw [List.splitOnP_cons_eq_if_modifyHead, List.filter_cons]
    by_cases hx : p x = true
    · simp [hx, ih]
    · obtain ⟨ys, yss, hys⟩ := List.exists_cons_of_ne_nil (List.splitOnP_ne_nil p xs)
      rw [hys, List.flatten_cons] at ih
      simp [hx, hys, ← ih]

end

/-! ## The spans of a list of columns -/

theorem spans_of_nonzero {r : List Byte} (hr : ∀ b ∈ r, b ≠ 0) : spans r = [r].filter fun r => !r.isEmpty := by
  rw [spans, List.splitOnP_eq_singleton (by simpa using hr)]

/-- A zero column ends a span. -/
theorem spans_append_zero (r columns : List Byte) : spans (r ++ 0 :: columns) = spans r ++ spans columns := by
  rw [spans, List.splitOnP_append_cons r columns rfl, List.filter_append]
  rfl

theorem flatten_spans (columns : List Byte) : (spans columns).flatten = columns.filter fun b => b != 0 := by
  rw [spans, List.flatten_filter_not_isEmpty, flatten_splitOnP]
  rfl

theorem ne_nil_of_mem_spans {columns r : List Byte} (h : r ∈ spans columns) : r ≠ [] := by
  simpa using (List.mem_filter.mp h).2

theorem ne_zero_of_mem_spans {columns r : List Byte} (h : r ∈ spans columns) {b : Byte} (hb : b ∈ r) : b ≠ 0 := by
  have hmem := List.mem_flatten_of_mem h hb
  rw [flatten_spans] at hmem
  simpa using (List.mem_filter.mp hmem).2

theorem length_flatten_spans (columns : List Byte) :
    (spans columns).flatten.length = columns.countP fun b => b != 0 := by
  rw [flatten_spans, List.countP_eq_length_filter]

/-- Every span holds a column. -/
theorem length_spans_le (columns : List Byte) : (spans columns).length ≤ columns.countP fun b => b != 0 := by
  rw [← length_flatten_spans, List.length_flatten]
  simpa using List.length_le_sum_of_one_le ((spans columns).map List.length) fun n hn => by
    obtain ⟨r, hr, rfl⟩ := List.mem_map.mp hn
    exact List.length_pos_iff.mpr (ne_nil_of_mem_spans hr)

/-- Between two spans there is a zero column. -/
theorem two_mul_length_spans_le (columns : List Byte) : 2 * (spans columns).length ≤ columns.length + 1 := by
  have hsplit : (spans columns).length ≤ columns.countP (fun b => b == 0) + 1 := by
    rw [← length_splitOnP]
    exact List.length_filter_le _ _
  have hspans := length_spans_le columns
  have hcount : columns.length = columns.countP (fun b => b == 0) + columns.countP fun b => b != 0 := by
    simpa [bne, beq_eq_decide] using List.length_eq_countP_add_countP (l := columns) fun b => b == 0
  omega

/-! ## The scan in terms of spans (R78 (d), (e)) -/

/-- The scan that has closed the spans `rs` and stands in the span `r`. -/
def Scan.ofSpans (rs : List (List Byte)) (r : List Byte) : Scan :=
  ⟨(rs.flatten ++ r).map (· &&& 0xFE), (rs.map List.length).scanl (· + ·) 0⟩

/-- The last offset is the number of bytes of the closed spans. -/
theorem Scan.lastOffset_ofSpans (rs : List (List Byte)) (r : List Byte) :
    (Scan.ofSpans rs r).lastOffset = rs.flatten.length := by
  rw [Scan.lastOffset, List.getLastD_eq_getLast?, Scan.ofSpans, List.getLast?_scanl, Option.getD_some,
    List.length_flatten, List.sum_eq_foldl]

theorem Scan.column_ofSpans (rs : List (List Byte)) (r : List Byte) {b : Byte} (hb : b ≠ 0) :
    (Scan.ofSpans rs r).column b = Scan.ofSpans rs (r ++ [b]) := by
  rw [Scan.column_nonzero _ hb]
  simp [Scan.ofSpans]

theorem Scan.close_ofSpans (rs : List (List Byte)) {r : List Byte} (hr : ∀ b ∈ r, b ≠ 0) :
    (Scan.ofSpans rs r).close = Scan.ofSpans (rs ++ spans r) [] := by
  have hbytes : (Scan.ofSpans rs r).bytes.length = rs.flatten.length + r.length := by
    rw [Scan.ofSpans, List.length_map, List.length_append]
  rw [spans_of_nonzero hr]
  by_cases hnil : r = []
  · rw [Scan.close_of_eq _ (by rw [hbytes, Scan.lastOffset_ofSpans, hnil]; rfl)]
    simp [hnil]
  · have hlen : r.length ≠ 0 := mt List.length_eq_zero_iff.mp hnil
    rw [Scan.close_of_ne _ (by rw [hbytes, Scan.lastOffset_ofSpans]; omega), hbytes]
    simp [Scan.ofSpans, hnil, List.scanl_append, List.length_flatten, List.sum_eq_foldl]

theorem Scan.foldl_column_close (columns : List Byte) (rs : List (List Byte)) {r : List Byte} (hr : ∀ b ∈ r, b ≠ 0) :
    (columns.foldl Scan.column (Scan.ofSpans rs r)).close = Scan.ofSpans (rs ++ spans (r ++ columns)) [] := by
  induction columns generalizing rs r with
  | nil => rw [List.append_nil, List.foldl_nil, Scan.close_ofSpans rs hr]
  | cons b columns ih =>
    rw [List.foldl_cons]
    by_cases hb : b = 0
    · rw [hb, Scan.column_zero, Scan.close_ofSpans rs hr, ih _ (by simp), spans_append_zero, List.append_assoc,
        List.nil_append]
    · rw [Scan.column_ofSpans rs r hb, ih rs (List.forall_mem_append.mpr ⟨hr, by simpa using hb⟩), List.append_assoc,
        List.singleton_append]

/-- A scan has closed the spans of its columns. -/
theorem scan_eq_ofSpans (columns : List Byte) : scan columns = Scan.ofSpans (spans columns) [] :=
  Scan.foldl_column_close columns [] (List.forall_mem_nil _)

theorem scan_bytes (columns : List Byte) : (scan columns).bytes = (spans columns).flatten.map (· &&& 0xFE) := by
  rw [scan_eq_ofSpans, Scan.ofSpans, List.append_nil]

theorem scan_offsets (columns : List Byte) :
    (scan columns).offsets = ((spans columns).map List.length).scanl (· + ·) 0 := by
  rw [scan_eq_ofSpans, Scan.ofSpans]

theorem length_scan_bytes (columns : List Byte) :
    (scan columns).bytes.length = columns.countP fun b => b != 0 := by
  rw [scan_bytes, List.length_map, length_flatten_spans]

theorem length_scan_offsets (columns : List Byte) : (scan columns).offsets.length = (spans columns).length + 1 := by
  rw [scan_offsets, List.length_scanl, List.length_map]

/-- Settles O19: the scan keeps the spans closed so far and the one it stands in, and the final close ends the last. -/
theorem scanIsTheSpansOfNonzeroColumns : Obligations.ScanIsTheSpansOfNonzeroColumns := fun columns =>
  ⟨scan_bytes columns, scan_offsets columns, length_scan_bytes columns, length_scan_offsets columns,
    fun _ hr => ⟨ne_nil_of_mem_spans hr, fun _ => ne_zero_of_mem_spans hr⟩⟩

/-! ## The bounds of the counts (R53 (e), (g)) -/

theorem length_scan_bytes_le (columns : List Byte) : (scan columns).bytes.length ≤ columns.length := by
  rw [length_scan_bytes]
  exact List.countP_le_length

theorem length_scan_offsets_le_bytes (columns : List Byte) :
    (scan columns).offsets.length ≤ (scan columns).bytes.length + 1 := by
  rw [length_scan_offsets, length_scan_bytes]
  exact Nat.succ_le_succ (length_spans_le columns)

theorem length_scan_offsets_le {columns : List Byte} (h : columns.length ≤ 1024) :
    (scan columns).offsets.length ≤ 513 := by
  have hspans := two_mul_length_spans_le columns
  rw [length_scan_offsets]
  omega

/-- Settles O22: a span takes a column, and with the zero column between it and the next two. -/
theorem scanCountsFitTheirRegisters : Obligations.ScanCountsFitTheirRegisters := fun columns h =>
  ⟨length_scan_bytes_le columns, (within_scan columns).offsets_pos, length_scan_offsets_le h,
    length_scan_offsets_le_bytes columns⟩

/-! ## The order of the offsets (R78 (a), (f)) -/

theorem le_of_mem_scanl_add {lengths : List Nat} {start o : Nat} (ho : o ∈ lengths.scanl (· + ·) start) :
    start ≤ o := by
  induction lengths generalizing start with
  | nil => simp_all
  | cons n lengths ih =>
    rw [List.scanl_cons, List.mem_cons] at ho
    obtain rfl | ho := ho
    · exact Nat.le_refl o
    · exact Nat.le_trans (Nat.le_add_right start n) (ih ho)

/-- Running sums of positive numbers rise strictly. -/
theorem pairwise_lt_scanl_add {lengths : List Nat} (h : ∀ n ∈ lengths, 0 < n) (start : Nat) :
    (lengths.scanl (· + ·) start).Pairwise (· < ·) := by
  induction lengths generalizing start with
  | nil => simp
  | cons n lengths ih =>
    obtain ⟨hn, hlengths⟩ := List.forall_mem_cons.mp h
    rw [List.scanl_cons, List.pairwise_cons]
    exact ⟨fun o ho => (Nat.lt_add_of_pos_right hn).trans_le (le_of_mem_scanl_add ho), ih hlengths _⟩

theorem length_pos_of_mem_map_spans {columns : List Byte} {n : Nat} (h : n ∈ (spans columns).map List.length) :
    0 < n := by
  obtain ⟨r, hr, rfl⟩ := List.mem_map.mp h
  exact List.length_pos_iff.mpr (ne_nil_of_mem_spans hr)

theorem scan_getLast?_offsets (columns : List Byte) :
    (scan columns).offsets.getLast? = some (scan columns).bytes.length := by
  rw [scan_offsets, List.getLast?_scanl, scan_bytes, List.length_map, List.length_flatten, List.sum_eq_foldl]

/-- The mask clears bit 0. -/
theorem getLsbD_zero_of_mem_scan_bytes {columns : List Byte} {b : Byte} (h : b ∈ (scan columns).bytes) :
    b.getLsbD 0 = false := by
  rw [scan_bytes] at h
  obtain ⟨b', -, rfl⟩ := List.mem_map.mp h
  rw [BitVec.getLsbD_and]
  exact Bool.and_false _

/-- Settles O20: the offsets are running sums of the lengths of non-empty spans. -/
theorem offsetsRiseStrictlyFromZero : Obligations.OffsetsRiseStrictlyFromZero := by
  refine fun columns => ⟨?_, ?_, fun _ => scan_getLast?_offsets columns, fun _ => getLsbD_zero_of_mem_scan_bytes⟩
  · rw [scan_offsets]
    exact pairwise_lt_scanl_add (fun _ => length_pos_of_mem_map_spans) 0
  · rw [scan_offsets, List.head?_scanl]

/-! ## The one-bit detector (R78 (b)) -/

/-- The detector beside a scan: its bit says that the emitted-byte count differs from the last offset. -/
def Scan.detector (sc : Scan) : Detector := ⟨sc.bytes, sc.offsets, decide (sc.bytes.length ≠ sc.lastOffset)⟩

theorem Scan.close_detector (sc : Scan) : sc.detector.close = sc.close.detector := by
  by_cases h : sc.bytes.length = sc.lastOffset
  · rw [sc.close_of_eq h]
    simp [Detector.close, Scan.detector, h]
  · have hlast : sc.close.bytes.length = sc.close.lastOffset := by rw [sc.close_lastOffset, sc.close_bytes]
    rw [Scan.detector, Scan.detector, decide_eq_false (not_not.mpr hlast), sc.close_of_ne h]
    simp [Detector.close, h]

/-- A non-zero column sets the bit, for no offset lies beyond the byte count. -/
theorem Scan.column_detector {sc : Scan} (h : sc.lastOffset ≤ sc.bytes.length) (b : Byte) :
    sc.detector.column b = (sc.column b).detector := by
  by_cases hb : b = 0
  · rw [hb, Scan.column_zero, ← sc.close_detector]
    rfl
  · have hlast : sc.bytes.length + 1 ≠ sc.lastOffset := by omega
    rw [sc.column_nonzero hb, Detector.column, if_neg hb]
    simpa [Scan.detector, Scan.lastOffset] using hlast

theorem Scan.column_lastOffset_le {sc : Scan} (h : sc.lastOffset ≤ sc.bytes.length) (b : Byte) :
    (sc.column b).lastOffset ≤ (sc.column b).bytes.length := by
  by_cases hb : b = 0
  · rw [hb, Scan.column_zero, sc.close_lastOffset, sc.close_bytes]
  · rw [sc.column_nonzero hb]
    simpa [Scan.lastOffset] using Nat.le_succ_of_le h

theorem Scan.foldl_column_detector (columns : List Byte) {sc : Scan} (h : sc.lastOffset ≤ sc.bytes.length) :
    columns.foldl Detector.column sc.detector = (columns.foldl Scan.column sc).detector := by
  induction columns generalizing sc with
  | nil => rfl
  | cons b columns ih =>
    rw [List.foldl_cons, List.foldl_cons, Scan.column_detector h, ih (Scan.column_lastOffset_le h b)]

theorem Scan.start_lastOffset_le : Scan.start.lastOffset ≤ Scan.start.bytes.length := Nat.le_refl 0

theorem detectorScan_eq (columns : List Byte) : detectorScan columns = (scan columns).detector := by
  rw [scan, ← Scan.close_detector, ← Scan.foldl_column_detector columns Scan.start_lastOffset_le]
  rfl

/-- Settles O21: the detector's bit is the compare at every column, so both scans close at the same columns. -/
theorem zeroRunDetectorScansTheSame : Obligations.ZeroRunDetectorScansTheSame := by
  intro columns
  refine ⟨by rw [detectorScan_eq]; rfl, by rw [detectorScan_eq]; rfl, ?_⟩
  have hflag := congrArg Detector.flag (Scan.foldl_column_detector columns Scan.start_lastOffset_le)
  exact (Eq.congr_left hflag).trans decide_eq_true_iff

end Sys2Proof.Machine
end

