-- ==== Sys2Proof/Proofs/Invariant.lean ====
section
/-! PROOF. The invariant: it holds after reset and every host step keeps it (spec/10_state.md R13, R20, R21;
spec/20_memory.md R30; spec/60_exceptions.md R85). -/

namespace Sys2Proof.Machine

/-! ## Reset -/

/-- Settles O51: no memory lists an element, the flags and counts are 0. -/
theorem resetStateMeetsTheInvariant : Obligations.ResetStateMeetsTheInvariant where
  pix := rfl
  pkd := rfl
  gbytes := rfl
  goffs := rfl
  charset := rfl
  cmaptab := rfl
  halt_iff := by decide
  err_le := by decide
  cout := by decide
  gbcnt_le := by decide
  gocnt_le := by decide
  runs_le := by decide

/-! ## One clause per update of the state

Each lemma names the fields of the invariant the update moves; the others hold as before. -/

section
variable {s : State}

theorem BlockInv.setInbox (h : BlockInv s) (rest : List HostStep) : BlockInv (s.setInbox rest) := { h with }

theorem BlockInv.reply (h : BlockInv s) (v : Half) : BlockInv (s.reply v) := { h with }

theorem blockInv_takeReset (s : State) : BlockInv s.takeReset := { resetStateMeetsTheInvariant with }

/-- Fault entry sets `HALT` with a code that is not 0 (spec/60_exceptions.md R92). -/
theorem BlockInv.raise (h : BlockInv s) (c : Cause) : BlockInv (s.raise c) :=
  { h with halt_iff := iff_of_true rfl c.code_ne_zero, err_le := c.code_range.2 }

/-- No register the host writes is part of the invariant. -/
theorem BlockInv.writeReg (h : BlockInv s) (r : Reg) (v : Nat) : BlockInv (s.writeReg r v) := by
  cases r with
  | thresh | width | height | len | cslen | cin | pb | rsel => exact { h with }
  | cmd | status | spix | gbcnt | gocnt | cout => exact h

theorem BlockInv.setPix (h : BlockInv s) (a : BitVec 13) (v : Byte) : BlockInv (s.setPix a.toNat v) :=
  { h with pix := Memory.wf_write v h.pix a.isLt }

theorem BlockInv.setPkd (h : BlockInv s) (a : BitVec 10) (v : Byte) : BlockInv (s.setPkd a.toNat v) :=
  { h with pkd := Memory.wf_write v h.pkd a.isLt }

theorem BlockInv.setGbytes (h : BlockInv s) (a : BitVec 10) (v : Byte) : BlockInv (s.setGbytes a.toNat v) :=
  { h with gbytes := Memory.wf_write v h.gbytes a.isLt }

theorem BlockInv.setGoffs (h : BlockInv s) (a : BitVec 10) (v : Half) : BlockInv (s.setGoffs a.toNat v) :=
  { h with goffs := Memory.wf_write v h.goffs a.isLt }

theorem BlockInv.setCharset (h : BlockInv s) (a : BitVec 8) (v : Byte) : BlockInv (s.setCharset a.toNat v) :=
  { h with charset := Memory.wf_write v h.charset a.isLt }

theorem BlockInv.setCmaptab (h : BlockInv s) (a : BitVec 8) (v : Half) : BlockInv (s.setCmaptab a.toNat v) :=
  { h with cmaptab := Memory.wf_write v h.cmaptab a.isLt }

/-! ## The commands -/

/-- `UNPKC` leaves each lane light or dark (spec/10_state.md R13). -/
theorem unpkc_lane (b : Byte) (i : Fin 8) : (Vector.ofFn fun i : Fin 8 => unpack b i.val)[i] = 0xFF ∨
    (Vector.ofFn fun i : Fin 8 => unpack b i.val)[i] = 0x00 := by
  rw [Fin.getElem_fin, Vector.getElem_ofFn]
  exact (unpack_eq_dark_or_light b i.val).symm

theorem BlockInv.encoded (h : BlockInv s) : BlockInv s.encoded :=
  { h with pkd := Memory.wf_writeTable h.pkd (by simp) }

theorem BlockInv.decoded (h : BlockInv s) : BlockInv s.decoded :=
  { h with pix := Memory.wf_writeTable h.pix (by simp) }

/-- A scan of at most 1024 columns fits its memories and its count registers (R53 (e), (g)). -/
theorem BlockInv.scanned (h : BlockInv s) {columns : List Byte} (hlen : columns.length ≤ 1024) :
    BlockInv (s.scanned (scan columns)) := by
  have hbytes := (length_scan_bytes_le columns).trans hlen
  have hoffsets := length_scan_offsets_le hlen
  have hbc := State.scanned_gbcnt (s := s) (within_scan columns) (by omega)
  have hoc := State.scanned_gocnt (s := s) (within_scan columns) (by omega)
  exact { h with
    gbytes := Memory.wf_writeTable h.gbytes hbytes
    goffs := Memory.wf_writeTable h.goffs (by rw [List.length_map]; omega)
    gbcnt_le := hbc ▸ hbytes
    gocnt_le := hoc ▸ hoffsets
    runs_le := by rw [hbc, hoc]; exact length_scan_offsets_le_bytes columns }

theorem BlockInv.charmapped (h : BlockInv s) : BlockInv s.charmapped :=
  { h with cmaptab := Memory.wf_writeTable h.cmaptab (by simp) }

/-- Every command keeps the invariant, whether it completes or faults. -/
theorem BlockInv.exec (h : BlockInv s) {i : Instr} {t : State} (ht : exec i s = .next t) : BlockInv t := by
  obtain ⟨-, rfl⟩ | ⟨-, rfl⟩ | ⟨-, rfl⟩ | ⟨_, -, rfl⟩ | ⟨-, rfl⟩ | ⟨-, -, rfl⟩ | ⟨-, -, -, rfl⟩ | ⟨-, -, rfl⟩ |
    ⟨-, -, rfl⟩ | ⟨-, -, rfl⟩ | ⟨-, -, -, rfl⟩ | ⟨-, -, hw, rfl⟩ | ⟨-, rfl⟩ := exec_cases ht
  -- the bit-column unit, then FENC, FDEC, GSCAN and CMAP
  exacts [h, { h with }, { h with cout := unpkc_lane s.pb }, { h with }, { h with },
    h.raise _, h.encoded, h.raise _, h.decoded,
    h.raise _, h.raise _, h.scanned (s.glyphColumns_length.trans_le hw), h.charmapped]

/-! ## The host's steps -/

theorem BlockInv.issue (h : BlockInv s) {w : BitVec 8} {t : State} (ht : issue w s = .next t) : BlockInv t := by
  cases hd : decode w with
  | ok i => exact h.exec (issue_of_ok hd s ▸ ht)
  | error e =>
    rw [issue_of_error hd, Host.Outcome.next.injEq] at ht
    exact ht ▸ h.raise _

theorem BlockInv.hostWrite (h : BlockInv s) {l : Loc} {v : Nat} {t : State} (ht : hostWrite l v s = .next t) :
    BlockInv t := by
  obtain ⟨-, rfl⟩ | ⟨-, -, hissue⟩ | ⟨-, r, -, -, rfl⟩ | ⟨-, _, -, -, rfl⟩ | ⟨-, hmem⟩ := hostWrite_cases ht
  · exact h
  · exact h.issue hissue
  · exact h.writeReg r v
  · exact h
  · obtain ⟨a, -, rfl⟩ | ⟨a, -, rfl⟩ | ⟨a, -, rfl⟩ | ⟨a, -, rfl⟩ | ⟨a, -, rfl⟩ | ⟨a, -, rfl⟩ := hmem
    exacts [h.setPix a _, h.setPkd a _, h.setGbytes a _, h.setGoffs a _, h.setCharset a _, h.setCmaptab a _]

end

/-- Settles O52: an idle step changes nothing, a reset gives the reset state's registers and memories, a read changes
nothing of the block, and a write keeps the invariant by `BlockInv.hostWrite`. -/
theorem everyStepKeepsTheInvariant : Obligations.EveryStepKeepsTheInvariant := by
  intro s t h ht
  obtain ⟨-, rfl⟩ | ⟨x, rest, -, ⟨-, rfl⟩ | ⟨l, -, rfl⟩ | ⟨l, v, -, hwrite⟩⟩ := step_cases ht
  · exact h
  · exact blockInv_takeReset _
  · exact (h.setInbox rest).reply _
  · exact (h.setInbox rest).hostWrite hwrite

end Sys2Proof.Machine
end

