-- ==== Sys2Proof/Proofs/Encoding.lean ====
section
/-! PROOF. Decoding and encoding, and the issue of a command word (spec/30_encoding.md R45 to R50). -/

namespace Sys2Proof

/-- Settles O28: each word is looked up in the map. -/
theorem tableWordsDecode : Obligations.TableWordsDecode := by
  unfold Obligations.TableWordsDecode
  decide

/-! ## Decoding the encoding (R46, R47) -/

theorem decode_encode {i : Instr} (h : WellFormed i) : decode (encode i) = .ok i := by
  cases i with
  | selr i => exact Machine.decode_selr_word i (of_decide_eq_true h)
  | nop | packc | unpkc | sern | fenc | fdec | gscan | cmap => decide

/-! ## Encoding the decoding (R47, R48) -/

/-- A word with a meaning has it from a row of the map that selects the word. -/
theorem exists_row_of_decode_eq_ok {w : BitVec 8} {i : Instr} (h : decode w = .ok i) :
    ∃ r ∈ opTable, r.selects w = true ∧ i = r.build w := by
  unfold decode at h
  cases hf : opTable.find? (·.selects w) with
  | none => simp [hf] at h
  | some r =>
    rw [hf, Except.ok.injEq] at h
    exact ⟨r, List.mem_of_find?_eq_some hf, List.find?_some (p := (OpRow.selects · w)) hf, h.symm⟩

/-- The row stands for well-formed commands whose encoding is the selected word. -/
def OpRow.Sound (r : OpRow) : Prop :=
  ∀ w : BitVec 8, r.selects w = true → WellFormed (r.build w) ∧ encode (r.build w) = w

/-- A row that selects its pattern alone. -/
theorem OpRow.sound_of_full_mask (mnemonic : String) {i : Instr} (hi : WellFormed i) :
    OpRow.Sound ⟨mnemonic, 0xFF, encode i, fun _ => i⟩ := by
  intro w hw
  have hmask : w &&& 0xFF = w := BitVec.and_allOnes
  rw [OpRow.selects, hmask, beq_iff_eq] at hw
  exact ⟨hi, hw.symm⟩

/-- SELR's row: the pattern gives bits 7:3 and the operand bits 2:0 (R48). -/
theorem OpRow.sound_selr (mnemonic : String) : OpRow.Sound ⟨mnemonic, 0xF8, 0x30, fun w => .selr (rowOperand w)⟩ := by
  intro w hw
  have hword : ∀ w : BitVec 8, w &&& 0xF8 = 0x30 → 0x30 ||| BitVec.ofNat 8 (rowOperand w) = w := by decide
  exact ⟨decide_eq_true (w.extractLsb' 0 3).isLt, hword w (beq_iff_eq.mp hw)⟩

theorem OpRow.sound_of_mem {r : OpRow} (h : r ∈ opTable) : r.Sound := by
  revert r
  simp only [opTable, List.forall_mem_cons]
  exact ⟨sound_of_full_mask (i := .nop) _ rfl, sound_of_full_mask (i := .packc) _ rfl,
    sound_of_full_mask (i := .unpkc) _ rfl, sound_selr _, sound_of_full_mask (i := .sern) _ rfl,
    sound_of_full_mask (i := .fenc) _ rfl, sound_of_full_mask (i := .fdec) _ rfl,
    sound_of_full_mask (i := .gscan) _ rfl, sound_of_full_mask (i := .cmap) _ rfl, List.forall_mem_nil _⟩

theorem wellFormed_and_encode_of_decode {w : BitVec 8} {i : Instr} (h : decode w = .ok i) :
    WellFormed i ∧ encode i = w := by
  obtain ⟨r, hr, hw, rfl⟩ := exists_row_of_decode_eq_ok h
  exact OpRow.sound_of_mem hr w hw

/-- Settles O29: command by command, and row by row of the map. -/
theorem decodeAndEncodeAgree : Obligations.DecodeAndEncodeAgree :=
  ⟨fun _ => decode_encode, fun _ _ => wellFormed_and_encode_of_decode⟩

end Sys2Proof

namespace Sys2Proof.Machine

/-! ## Issue (R45, R50) -/

/-- Settles O31: the value is truncated to a byte before it is looked at. -/
theorem commandIsTheLowByteOfTheWrite : Obligations.CommandIsTheLowByteOfTheWrite := by
  intro s v w h
  have hbyte : BitVec.ofNat 8 v = BitVec.ofNat 8 w := BitVec.eq_of_toNat_eq h
  cases hs : s.halt with
  | true => rw [hostWrite_halted hs, hostWrite_halted hs]
  | false => rw [hostWrite_cmd hs, hostWrite_cmd hs, hbyte]

/-- A step on a block that is not halted whose host access is a write of a command word to `CMD`. -/
theorem step_command {s : State} {v : Nat} {rest : List HostStep} {i : Instr} (hs : s.halt = false)
    (hb : s.inbox = .write (.reg 0) v :: rest) (hd : decode (BitVec.ofNat 8 v) = .ok i) :
    step s = exec i (s.setInbox rest) := by
  rw [step_cons hb, hostStep, hostWrite_cmd (s := s.setInbox rest) hs, issue_of_ok hd]

theorem decode_of_decodeTableWord {nbits w : Nat} {i : Instr} (h : decodeTableWord nbits w = some i) :
    decode (BitVec.ofNat 8 (w % 2 ^ nbits)) = .ok i := by
  unfold decodeTableWord at h
  cases hd : decode (BitVec.ofNat 8 (w % 2 ^ nbits)) with
  | ok j => simpa [hd] using h
  | error e => simp [hd] at h

/-- Settles O32: the host's write is taken from the inbox and issued; a placed word is such a write. -/
theorem stepRunsTheDecodedCommand : Obligations.StepRunsTheDecodedCommand :=
  ⟨fun _ _ _ _ hs hb hd => ⟨(wellFormed_and_encode_of_decode hd).1, step_command hs hb hd⟩,
    fun s nbits w _ hs hd => step_command (s := s.withFetchWord nbits w) hs rfl (decode_of_decodeTableWord hd)⟩

end Sys2Proof.Machine
end

