-- ==== Sys2Proof/Proofs/RegisterSpace.lean ====
section
/-! PROOF. The register space and the status word (spec/10_state.md R21, R23, R28; spec/20_memory.md R40). -/

namespace Sys2Proof.Machine

/-! ## Reset values and the status word (R21, R28) -/

/-- Settles O44: the fields of the reset state. -/
theorem resetStateHoldsTheSpecsValues : Obligations.ResetStateHoldsTheSpecsValues := by
  unfold Obligations.ResetStateHoldsTheSpecsValues
  decide

theorem State.status_congr {s t : State} (herr : t.err = s.err) (hsout : t.sout = s.sout) (hgwarn : t.gwarn = s.gwarn)
    (hhalt : t.halt = s.halt) : t.status = s.status := by
  rw [State.status, State.status, herr, hsout, hgwarn, hhalt]

/-- The word as a number: each field has the weight of its lowest bit. -/
theorem State.status_toNat (s : State) :
    s.status.toNat = s.err.toNat * 16 + s.sout.toNat * 4 + s.gwarn.toNat * 2 + s.halt.toNat := by
  have hword : ∀ (err : BitVec 4) (sout gwarn halt : Bool),
      (err ++ 0#1 ++ BitVec.ofBool sout ++ BitVec.ofBool gwarn ++ BitVec.ofBool halt).toNat
        = err.toNat * 16 + sout.toNat * 4 + gwarn.toNat * 2 + halt.toNat := by decide
  exact hword _ _ _ _

theorem State.status_extract_err (s : State) : s.status.extractLsb' 4 4 = s.err := by
  have hword : ∀ (err : BitVec 4) (sout gwarn halt : Bool),
      (err ++ 0#1 ++ BitVec.ofBool sout ++ BitVec.ofBool gwarn ++ BitVec.ofBool halt).extractLsb' 4 4 = err := by
    decide
  exact hword _ _ _ _

/-- Settles O34: the word is the concatenation of its fields. -/
theorem statusWordHasTheTablesLayout : Obligations.StatusWordHasTheTablesLayout := by
  refine fun s => ⟨?_, ?_, s.status_getLsbD_two, ?_, s.status_extract_err, s.status_toNat,
    hostRead_reg (Reg.ofNumber_number .status) s⟩
  -- bits 0, 1 and 3
  all_goals
    simp only [State.status, BitVec.getLsbD_append]
    simp

/-! ## What a host read depends on -/

/-- A read of a register number, implemented or not, depends on that register alone. -/
theorem hostRead_reg_congr {s t : State} {n : Nat} (h : ∀ r : Reg, n = r.number → t.readReg r = s.readReg r) :
    hostRead t (.reg n) = hostRead s (.reg n) := by
  cases hn : Reg.ofNumber n with
  | none => simp only [hostRead, hn]
  | some r => rw [hostRead_reg hn, hostRead_reg hn, h r (Reg.number_of_ofNumber hn)]

/-- Two states hold the same memories, and draw the same free values. -/
structure SameMemories (s t : State) : Prop where
  pix : t.pix = s.pix
  pkd : t.pkd = s.pkd
  gbytes : t.gbytes = s.gbytes
  goffs : t.goffs = s.goffs
  charset : t.charset = s.charset
  cmaptab : t.cmaptab = s.cmaptab
  epoch : t.epoch = s.epoch

theorem SameMemories.hostRead {s t : State} (h : SameMemories s t) {l : Loc} (hl : l.isMemory = true) :
    hostRead t l = hostRead s l := by
  cases l with
  | reg n => cases hl
  | pix a => exact congrArg (·.setWidth 16) (State.pixAt_congr h.pix h.epoch a.toNat)
  | pkd a => exact congrArg (·.setWidth 16) (State.pkdAt_congr h.pkd h.epoch a.toNat)
  | gbytes a => exact congrArg (·.setWidth 16) (State.gbytesAt_congr h.gbytes h.epoch a.toNat)
  | goffs a => exact State.goffsAt_congr h.goffs h.epoch a.toNat
  | charset a => exact congrArg (·.setWidth 16) (State.charsetAt_congr h.charset h.epoch a.toNat)
  | cmaptab a => exact State.cmaptabAt_congr h.cmaptab h.epoch a.toNat

/-! ## Writing a register, field by field (R23) -/

section
variable (s : State) (r : Reg) (v : Nat)

@[simp] theorem State.writeReg_thresh :
    (s.writeReg r v).thresh = if r = .thresh then BitVec.ofNat 8 v else s.thresh := by cases r <;> rfl
@[simp] theorem State.writeReg_width :
    (s.writeReg r v).width = if r = .width then BitVec.ofNat 16 v else s.width := by cases r <;> rfl
@[simp] theorem State.writeReg_height :
    (s.writeReg r v).height = if r = .height then BitVec.ofNat 16 v else s.height := by cases r <;> rfl
@[simp] theorem State.writeReg_len :
    (s.writeReg r v).len = if r = .len then BitVec.ofNat 16 v else s.len := by cases r <;> rfl
@[simp] theorem State.writeReg_cslen :
    (s.writeReg r v).cslen = if r = .cslen then BitVec.ofNat 8 v else s.cslen := by cases r <;> rfl
@[simp] theorem State.writeReg_cin :
    (s.writeReg r v).cin = if r = .cin then BitVec.ofNat 8 v else s.cin := by cases r <;> rfl
@[simp] theorem State.writeReg_pb :
    (s.writeReg r v).pb = if r = .pb then BitVec.ofNat 8 v else s.pb := by cases r <;> rfl
@[simp] theorem State.writeReg_rsel :
    (s.writeReg r v).rsel = if r = .rsel then BitVec.ofNat 3 v else s.rsel := by cases r <;> rfl
@[simp] theorem State.writeReg_gbcnt : (s.writeReg r v).gbcnt = s.gbcnt := by cases r <;> rfl
@[simp] theorem State.writeReg_gocnt : (s.writeReg r v).gocnt = s.gocnt := by cases r <;> rfl
@[simp] theorem State.writeReg_cout : (s.writeReg r v).cout = s.cout := by cases r <;> rfl
@[simp] theorem State.writeReg_halt : (s.writeReg r v).halt = s.halt := by cases r <;> rfl
@[simp] theorem State.writeReg_gwarn : (s.writeReg r v).gwarn = s.gwarn := by cases r <;> rfl
@[simp] theorem State.writeReg_err : (s.writeReg r v).err = s.err := by cases r <;> rfl

theorem State.writeReg_sameMemories : SameMemories s (s.writeReg r v) := by
  cases r <;> exact ⟨rfl, rfl, rfl, rfl, rfl, rfl, rfl⟩

end

theorem State.writeReg_sout {r : Reg} (h : ¬ (r = .pb ∨ r = .rsel)) (s : State) (v : Nat) :
    (s.writeReg r v).sout = s.sout := by
  rw [not_or] at h
  exact State.sout_congr (by simp [h.1]) (by simp [h.2])

/-- A write moves the register it names, and with `PB` and `RSEL` the two that show the mux outputs. -/
theorem State.readReg_writeReg_ne {r r' : Reg} (hne : r ≠ r') (hmux : r = .pb ∨ r = .rsel → r' ≠ .status ∧ r' ≠ .spix)
    (s : State) (v : Nat) : (s.writeReg r v).readReg r' = s.readReg r' := by
  cases r' with
  | status =>
    have hsout := State.writeReg_sout (fun h => (hmux h).1 rfl) s v
    simp only [State.readReg, State.status_congr (by simp) hsout (by simp) (by simp)]
  | spix =>
    have hsout := State.writeReg_sout (fun h => (hmux h).2 rfl) s v
    simp only [State.readReg, State.spix, hsout]
  | cmd => rfl
  | _ => simp [State.readReg, hne]

/-- The read-only registers ignore a write. -/
theorem State.writeReg_readOnly {r : Reg} (h : r.number = 1 ∨ 10 ≤ r.number) (s : State) (v : Nat) :
    s.writeReg r v = s := by
  cases r with
  | thresh | width | height | len | cslen | cin | pb | rsel => simp [Reg.number] at h
  | cmd | status | spix | gbcnt | gocnt | cout => rfl

/-! ## The table of R23 -/

/-- What a host write of a register that is not `CMD` does, for the number and width the table gives the register. -/
theorem hostWrite_register {s : State} (hs : s.halt = false) {r : Reg} (hr : r ≠ .cmd) {w v : Nat}
    (hw : ((s.writeReg r v).readReg r).toNat = v % 2 ^ w) :
    ∃ t, hostWrite (.reg r.number) v s = .next t ∧ (hostRead t (.reg r.number)).toNat = v % 2 ^ w ∧
      (∀ l, l ≠ .reg r.number → (r.number = 8 ∨ r.number = 9 → l ≠ .reg 1 ∧ l ≠ .reg 10) →
        hostRead t l = hostRead s l) ∧
      t.halt = s.halt ∧ t.gwarn = s.gwarn ∧ t.err = s.err := by
  refine ⟨_, hostWrite_reg hs (Reg.ofNumber_number r) hr v, ?_, fun l hl hmux => ?_, by simp, by simp, by simp⟩
  · rw [hostRead_reg (Reg.ofNumber_number r), hw]
  · cases l with
    | reg n =>
      refine hostRead_reg_congr fun r' hn => State.readReg_writeReg_ne (fun h => hl (by rw [hn, h])) (fun h => ?_) s v
      obtain ⟨h1, h10⟩ := hmux (by rcases h with rfl | rfl <;> decide)
      exact ⟨fun h => h1 (by rw [hn, h]; rfl), fun h => h10 (by rw [hn, h]; rfl)⟩
    | _ a => exact (s.writeReg_sameMemories r v).hostRead rfl

theorem toNat_setWidth_ofNat {n w : Nat} (h : n ≤ w) (v : Nat) : ((BitVec.ofNat n v).setWidth w).toNat = v % 2 ^ n := by
  rw [BitVec.toNat_setWidth_of_le h, BitVec.toNat_ofNat]

theorem hostRead_unimplemented {n : Nat} (h : Reg.ofNumber n = none) (s : State) : hostRead s (.reg n) = 0 := by
  simp only [hostRead, h]

theorem Reg.ofNumber_unimplemented {n : Nat} (h13 : 13 ≤ n) (h : n ≤ 15 ∨ 24 ≤ n) : Reg.ofNumber n = none := by
  rcases h with h | h
  · interval_cases n <;> rfl
  · exact Reg.ofNumber_of_ge h

/-- The read-only and the unimplemented numbers ignore a write, halted or not. -/
theorem hostWrite_ignored {n : Nat} (h : n = 1 ∨ 10 ≤ n) (s : State) (v : Nat) :
    hostWrite (.reg n) v s = .next s := by
  cases hs : s.halt with
  | true => exact hostWrite_halted hs _ v
  | false =>
    cases hn : Reg.ofNumber n with
    | none => exact hostWrite_unimplemented hn v s
    | some r =>
      obtain rfl := Reg.number_of_ofNumber hn
      have hr : r ≠ .cmd := by rintro rfl; simp [Reg.number] at h
      rw [hostWrite_reg hs hn hr, State.writeReg_readOnly h]

/-- Settles O35: the reads are the table's entries; a write is one of the eight read/write rows, or is ignored. -/
theorem registerSpaceFollowsTheTable : Obligations.RegisterSpaceFollowsTheTable := by
  refine ⟨fun s => ⟨rfl, rfl, rfl, rfl, rfl, rfl, rfl, rfl, rfl, rfl, rfl, rfl, rfl,
    fun i => hostRead_reg (Reg.ofNumber_number (.cout i)) s,
    fun n h13 h => hostRead_unimplemented (Reg.ofNumber_unimplemented h13 h) s⟩, fun s n w v hs hmem => ?_,
    fun s n v h => hostWrite_ignored (by omega) s v⟩
  simp only [List.mem_cons, Prod.mk.injEq, List.not_mem_nil, or_false] at hmem
  obtain ⟨rfl, rfl⟩ | ⟨rfl, rfl⟩ | ⟨rfl, rfl⟩ | ⟨rfl, rfl⟩ | ⟨rfl, rfl⟩ | ⟨rfl, rfl⟩ | ⟨rfl, rfl⟩ | ⟨rfl, rfl⟩ := hmem
  exacts [hostWrite_register (r := .thresh) hs (by decide) (toNat_setWidth_ofNat (by decide) v),
    hostWrite_register (r := .width) hs (by decide) (BitVec.toNat_ofNat v 16),
    hostWrite_register (r := .height) hs (by decide) (BitVec.toNat_ofNat v 16),
    hostWrite_register (r := .len) hs (by decide) (BitVec.toNat_ofNat v 16),
    hostWrite_register (r := .cslen) hs (by decide) (toNat_setWidth_ofNat (by decide) v),
    hostWrite_register (r := .cin) hs (by decide) (toNat_setWidth_ofNat (by decide) v),
    hostWrite_register (r := .pb) hs (by decide) (toNat_setWidth_ofNat (by decide) v),
    hostWrite_register (r := .rsel) hs (by decide) (toNat_setWidth_ofNat (by decide) v)]

end Sys2Proof.Machine
end

