-- ==== Sys2Proof/Proofs/HostAccess.lean ====
section
/-! PROOF. Host access to the memories, and what every host step comes to (spec/20_memory.md R38, R40;
spec/70_reset_and_hazards.md R101, R111). -/

namespace Sys2Proof.Machine

/-! ## Writing one element of a memory (R40) -/

theorem Memory.getD_read_write {α : Type} (m : Memory α) (a b : Nat) (v d : α) :
    ((m.write a v).read b).getD d = if b = a then v else (m.read b).getD d := by
  rw [Memory.read_write]
  split <;> rfl

section
variable (s : State) (a b : Nat)

theorem State.setPix_pixAt (v : Byte) : (s.setPix a v).pixAt b = if b = a then v else s.pixAt b :=
  Memory.getD_read_write ..
theorem State.setPkd_pkdAt (v : Byte) : (s.setPkd a v).pkdAt b = if b = a then v else s.pkdAt b :=
  Memory.getD_read_write ..
theorem State.setGbytes_gbytesAt (v : Byte) : (s.setGbytes a v).gbytesAt b = if b = a then v else s.gbytesAt b :=
  Memory.getD_read_write ..
theorem State.setGoffs_goffsAt (v : Half) : (s.setGoffs a v).goffsAt b = if b = a then v else s.goffsAt b :=
  Memory.getD_read_write ..
theorem State.setCharset_charsetAt (v : Byte) :
    (s.setCharset a v).charsetAt b = if b = a then v else s.charsetAt b := Memory.getD_read_write ..
theorem State.setCmaptab_cmaptabAt (v : Half) :
    (s.setCmaptab a v).cmaptabAt b = if b = a then v else s.cmaptabAt b := Memory.getD_read_write ..

end

section
variable (s : State) (l : Loc)

theorem hostRead_setPix (a : BitVec 13) (v : Byte) :
    hostRead (s.setPix a.toNat v) l = if l = .pix a then v.setWidth 16 else hostRead s l := by
  cases l with
  | pix b =>
    simp only [hostRead, State.setPix_pixAt, Loc.pix.injEq, BitVec.toNat_inj, apply_ite (BitVec.setWidth 16)]
  | _ => rfl

theorem hostRead_setPkd (a : BitVec 10) (v : Byte) :
    hostRead (s.setPkd a.toNat v) l = if l = .pkd a then v.setWidth 16 else hostRead s l := by
  cases l with
  | pkd b =>
    simp only [hostRead, State.setPkd_pkdAt, Loc.pkd.injEq, BitVec.toNat_inj, apply_ite (BitVec.setWidth 16)]
  | _ => rfl

theorem hostRead_setGbytes (a : BitVec 10) (v : Byte) :
    hostRead (s.setGbytes a.toNat v) l = if l = .gbytes a then v.setWidth 16 else hostRead s l := by
  cases l with
  | gbytes b =>
    simp only [hostRead, State.setGbytes_gbytesAt, Loc.gbytes.injEq, BitVec.toNat_inj, apply_ite (BitVec.setWidth 16)]
  | _ => rfl

theorem hostRead_setGoffs (a : BitVec 10) (v : Half) :
    hostRead (s.setGoffs a.toNat v) l = if l = .goffs a then v else hostRead s l := by
  cases l with
  | goffs b => simp only [hostRead, State.setGoffs_goffsAt, Loc.goffs.injEq, BitVec.toNat_inj]
  | _ => rfl

theorem hostRead_setCharset (a : BitVec 8) (v : Byte) :
    hostRead (s.setCharset a.toNat v) l = if l = .charset a then v.setWidth 16 else hostRead s l := by
  cases l with
  | charset b =>
    simp only [hostRead, State.setCharset_charsetAt, Loc.charset.injEq, BitVec.toNat_inj,
      apply_ite (BitVec.setWidth 16)]
  | _ => rfl

theorem hostRead_setCmaptab (a : BitVec 8) (v : Half) :
    hostRead (s.setCmaptab a.toNat v) l = if l = .cmaptab a then v else hostRead s l := by
  cases l with
  | cmaptab b => simp only [hostRead, State.setCmaptab_cmaptabAt, Loc.cmaptab.injEq, BitVec.toNat_inj]
  | _ => rfl

end

section
variable {s : State} (hs : s.halt = false)
include hs

theorem hostWrite_pkd (a : BitVec 10) (v : Nat) :
    hostWrite (.pkd a) v s = .next (s.setPkd a.toNat (BitVec.ofNat 8 v)) := by
  simp [hostWrite, hs]

theorem hostWrite_gbytes (a : BitVec 10) (v : Nat) :
    hostWrite (.gbytes a) v s = .next (s.setGbytes a.toNat (BitVec.ofNat 8 v)) := by
  simp [hostWrite, hs]

theorem hostWrite_goffs (a : BitVec 10) (v : Nat) :
    hostWrite (.goffs a) v s = .next (s.setGoffs a.toNat (BitVec.ofNat 16 v)) := by
  simp [hostWrite, hs]

theorem hostWrite_cmaptab (a : BitVec 8) (v : Nat) :
    hostWrite (.cmaptab a) v s = .next (s.setCmaptab a.toNat (BitVec.ofNat 16 v)) := by
  simp [hostWrite, hs]

end

/-- The width of an element of a memory (spec/10_state.md R25). -/
def Loc.bits : Loc → Nat
  | .goffs _ | .cmaptab _ => 16
  | _ => 8

theorem Loc.bits_le (l : Loc) : l.bits ≤ 16 := by cases l <;> simp [Loc.bits]

theorem Loc.bits_eq (l : Loc) :
    2 ^ l.bits = if (∃ a, l = .goffs a) ∨ (∃ a, l = .cmaptab a) then 2 ^ 16 else 2 ^ 8 := by
  cases l <;> simp [Loc.bits]

/-- What a host write leaves in every element: `v` truncated to the width of the element written, the old value
elsewhere. -/
theorem hostWrite_memory {s : State} (hs : s.halt = false) {l : Loc} (hl : l.isMemory = true) (v : Nat) :
    ∃ t, hostWrite l v s = .next t ∧
      ∀ l', hostRead t l' = if l' = l then (BitVec.ofNat l.bits v).setWidth 16 else hostRead s l' := by
  cases l with
  | reg n => cases hl
  | pix a => exact ⟨_, hostWrite_pix hs a v, fun l' => hostRead_setPix s l' a _⟩
  | pkd a => exact ⟨_, hostWrite_pkd hs a v, fun l' => hostRead_setPkd s l' a _⟩
  | gbytes a => exact ⟨_, hostWrite_gbytes hs a v, fun l' => hostRead_setGbytes s l' a _⟩
  | goffs a =>
    exact ⟨_, hostWrite_goffs hs a v, fun l' => by rw [hostRead_setGoffs, Loc.bits, BitVec.setWidth_eq]⟩
  | charset a => exact ⟨_, hostWrite_charset hs a v, fun l' => hostRead_setCharset s l' a _⟩
  | cmaptab a =>
    exact ⟨_, hostWrite_cmaptab hs a v, fun l' => by rw [hostRead_setCmaptab, Loc.bits, BitVec.setWidth_eq]⟩

/-- Settles O36: read after write, of the element written and of any other. -/
theorem hostWriteStoresOneElement : Obligations.HostWriteStoresOneElement := by
  intro s l v hs hl
  obtain ⟨t, ht, hread⟩ := hostWrite_memory hs hl v
  refine ⟨t, ht, ?_, fun l' hne => by rw [hread, if_neg hne]⟩
  rw [hread, if_pos rfl, toNat_setWidth_ofNat l.bits_le, Loc.bits_eq]

/-! ## Reads (R38, R40) -/

@[simp] theorem State.setInbox_block (s : State) (rest : List HostStep) : (s.setInbox rest).block = s.block := rfl

@[simp] theorem State.reply_block (s : State) (v : Half) : (s.reply v).block = s.block := rfl

theorem step_read {s : State} {l : Loc} {rest : List HostStep} (hb : s.inbox = .read l :: rest) :
    step s = .next ((s.setInbox rest).reply (hostRead s l)) := step_cons hb

/-- Settles O37: the first read leaves the block as it was, so the second returns the same value. -/
theorem hostReadChangesNothing : Obligations.HostReadChangesNothing := by
  intro s l rest hb
  have hfirst := step_read hb
  have hsecond := step_read (s := (s.setInbox (.read l :: rest)).reply (hostRead s l)) (rest := rest) rfl
  have hsame : hostRead ((s.setInbox (.read l :: rest)).reply (hostRead s l)) l = hostRead s l :=
    hostRead_congr_block (by simp) l
  rw [hsame] at hsecond
  have hrun := (runSteps_succ 1 hfirst).trans (runSteps_succ 0 hsecond)
  exact ⟨_, hrun, by simp, rfl, List.append_assoc s.replies [hostRead s l] [hostRead s l]⟩

/-! ## Every step completes (R101, R111) -/

/-- Settles O45: the step is `takeReset` on the state without the host's access. -/
theorem resetStepRestoresTheResetState : Obligations.ResetStepRestoresTheResetState :=
  fun s rest hb => ⟨(s.setInbox rest).takeReset, step_cons hb, rfl, rfl, rfl⟩

theorem exec_completes (i : Instr) (s : State) : ∃ t, exec i s = .next t := by
  have hbulk : i = .fenc ∨ i = .fdec ∨ i = .gscan ∨ i = .cmap → ∃ t, exec i s = .next t := fun hi =>
    (exec_withBitColumn hi s).imp fun _ h => h.1
  cases i with
  | fenc | fdec | gscan | cmap => exact hbulk (by decide)
  | nop | packc | unpkc | selr | sern => exact ⟨_, rfl⟩

theorem issue_completes (w : BitVec 8) (s : State) : ∃ t, issue w s = .next t := by
  cases hd : decode w with
  | ok i => rw [issue_of_ok hd]; exact exec_completes i s
  | error e => exact ⟨_, issue_of_error hd s⟩

theorem hostWrite_completes (l : Loc) (v : Nat) (s : State) : ∃ t, hostWrite l v s = .next t := by
  cases hs : s.halt with
  | true => exact ⟨s, hostWrite_halted hs l v⟩
  | false =>
    cases l with
    | reg n =>
      cases hn : Reg.ofNumber n with
      | none => exact ⟨s, hostWrite_unimplemented hn v s⟩
      | some r =>
        by_cases hr : r = .cmd
        · obtain rfl : n = 0 := by rw [Reg.number_of_ofNumber hn, hr]; rfl
          rw [hostWrite_cmd hs]
          exact issue_completes _ s
        · exact ⟨_, hostWrite_reg hs hn hr v⟩
    | _ a =>
      refine (hostWrite_memory hs ?_ v).imp fun _ h => h.1
      rfl

theorem step_completes (s : State) : ∃ t, step s = .next t := by
  cases hb : s.inbox with
  | nil => exact ⟨s, step_nil hb⟩
  | cons x rest =>
    rw [step_cons hb]
    cases x with
    | write l v => exact hostWrite_completes l v _
    | read l => exact ⟨_, rfl⟩
    | reset => exact ⟨_, rfl⟩

/-- Settles O49: a command completes or enters a fault, and both are next states. -/
theorem everyCommandCompletes : Obligations.EveryCommandCompletes := ⟨exec_completes, step_completes⟩

end Sys2Proof.Machine
end

