-- ==== Sys2Proof/Proofs/CommandFrames.lean ====
section
/-! PROOF. What the commands leave unchanged and what they do not read (spec/10_state.md R29; spec/40_bitcolumn.md
R59 to R63; spec/41_framecodec.md R67, R69; spec/42_glyph.md R76, R80 to R82; spec/70_reset_and_hazards.md R106). -/

namespace Sys2Proof.Machine

/-! ## The bit-column commands (R59 to R63) -/

/-- What a bit-column command keeps: memories, parameters, results and flags always, a register of the unit unless it is
the command's own. -/
structure BitColumnFrame (i : Instr) (s t : State) : Prop extends SameMemories s t where
  cin : t.cin = s.cin
  thresh : t.thresh = s.thresh
  width : t.width = s.width
  height : t.height = s.height
  len : t.len = s.len
  cslen : t.cslen = s.cslen
  gbcnt : t.gbcnt = s.gbcnt
  gocnt : t.gocnt = s.gocnt
  halt : t.halt = s.halt
  gwarn : t.gwarn = s.gwarn
  err : t.err = s.err
  pb : i ≠ .packc → t.pb = s.pb
  cout : i ≠ .unpkc → t.cout = s.cout
  rsel : i = .nop ∨ i = .packc ∨ i = .unpkc → t.rsel = s.rsel

theorem BitColumnFrame.refl (i : Instr) (s : State) : BitColumnFrame i s s :=
  ⟨⟨rfl, rfl, rfl, rfl, rfl, rfl, rfl⟩, rfl, rfl, rfl, rfl, rfl, rfl, rfl, rfl, rfl, rfl, rfl, fun _ => rfl,
    fun _ => rfl, fun _ => rfl⟩

theorem exec_bitColumnFrame {i : Instr} {s t : State}
    (hi : i = .nop ∨ i = .packc ∨ i = .unpkc ∨ (∃ r, i = .selr r) ∨ i = .sern) (h : exec i s = .next t) :
    BitColumnFrame i s t := by
  obtain rfl | rfl | rfl | ⟨r, rfl⟩ | rfl := hi <;> obtain rfl := Host.Outcome.next.inj h
  -- NOP, PACKC, UNPKC, SELR, SERN
  · exact .refl _ s
  · exact { BitColumnFrame.refl .packc s with pb := fun h => absurd rfl h }
  · exact { BitColumnFrame.refl .unpkc s with cout := fun h => absurd rfl h }
  · exact { BitColumnFrame.refl (.selr r) s with rsel := fun h => by simp at h }
  · exact { BitColumnFrame.refl .sern s with rsel := fun h => by simp at h }

/-- Settles O9: each command writes one register of its unit, or none. -/
theorem bitColumnCommandsKeepTheRest : Obligations.BitColumnCommandsKeepTheRest := by
  intro i s t hi h
  have hf := exec_bitColumnFrame hi h
  exact ⟨fun l hl => hf.toSameMemories.hostRead hl, ⟨hf.cin, hf.thresh, hf.width, hf.height, hf.len, hf.cslen, hf.gbcnt,
    hf.gocnt, hf.halt, hf.gwarn, hf.err⟩, hf.pb, hf.cout, hf.rsel⟩

/-! ## The bulk commands, element by element (R67, R69, R76, R80, R82) -/

theorem State.hostRead_encoded (s : State) {l : Loc} (hlen : l ≠ .reg 5) (hpkd : ∀ a, l ≠ .pkd a) :
    hostRead s.encoded l = hostRead s l := by
  cases l with
  | reg n =>
    refine hostRead_reg_congr fun r hn => ?_
    cases r with
    | len => exact absurd (congrArg Loc.reg hn) hlen
    | _ => rfl
  | pkd a => exact absurd rfl (hpkd a)
  | _ => rfl

theorem State.hostRead_decoded (s : State) {l : Loc} (hwidth : l ≠ .reg 3) (hheight : l ≠ .reg 4)
    (hpix : ∀ a, l ≠ .pix a) : hostRead s.decoded l = hostRead s l := by
  cases l with
  | reg n =>
    refine hostRead_reg_congr fun r hn => ?_
    cases r with
    | width => exact absurd (congrArg Loc.reg hn) hwidth
    | height => exact absurd (congrArg Loc.reg hn) hheight
    | _ => rfl
  | pix a => exact absurd rfl (hpix a)
  | _ => rfl

/-- The elements at and above the lists' lengths keep what they held (R82). -/
theorem State.hostRead_scanned (s : State) (sc : Scan) {l : Loc} (hstatus : l ≠ .reg 1) (hgbcnt : l ≠ .reg 11)
    (hgocnt : l ≠ .reg 12) (hgbytes : ∀ a, l = .gbytes a → sc.bytes.length ≤ a.toNat)
    (hgoffs : ∀ a, l = .goffs a → sc.offsets.length ≤ a.toNat) : hostRead (s.scanned sc) l = hostRead s l := by
  cases l with
  | reg n =>
    refine hostRead_reg_congr fun r hn => ?_
    cases r with
    | status => exact absurd (congrArg Loc.reg hn) hstatus
    | gbcnt => exact absurd (congrArg Loc.reg hn) hgbcnt
    | gocnt => exact absurd (congrArg Loc.reg hn) hgocnt
    | _ => rfl
  | gbytes a =>
    exact congrArg (BitVec.setWidth 16)
      (State.gbytesAt_beyond_table (s := s) (t := s.scanned sc) rfl rfl (hgbytes a rfl))
  | goffs a =>
    exact State.goffsAt_beyond_table (s := s) (t := s.scanned sc) rfl rfl
      (by rw [List.length_map]; exact hgoffs a rfl)
  | _ => rfl

theorem State.hostRead_charmapped (s : State) {l : Loc} (hcmaptab : ∀ a, l ≠ .cmaptab a) :
    hostRead s.charmapped l = hostRead s l := by
  cases l with
  | reg n => exact hostRead_reg_congr fun r _ => by cases r <;> rfl
  | cmaptab a => exact absurd rfl (hcmaptab a)
  | _ => rfl

/-- Settles O26: element by element of the state each command leaves. -/
theorem bulkCommandsStoreOnlyTheirOutputs : Obligations.BulkCommandsStoreOnlyTheirOutputs := by
  refine ⟨fun s hw hh => ⟨_, exec_fenc hw hh, fun _ => s.hostRead_encoded⟩,
    fun s hl => ⟨_, exec_fdec hl, fun _ => s.hostRead_decoded⟩, fun s hh hw => ?_,
    fun s => ⟨_, exec_cmap s, fun _ => s.hostRead_charmapped⟩⟩
  have hsc := within_scan s.glyphColumns
  have hn : s.glyphColumns.length + 1 < 65535 := by rw [s.glyphColumns_length]; omega
  refine ⟨_, exec_gscan (congrArg BitVec.toNat hh) hw, ?_, rfl, rfl, rfl⟩
  rw [State.scanned_gbcnt hsc hn, State.scanned_gocnt hsc hn]
  exact fun _ => s.hostRead_scanned _

/-! ## What the bulk commands read (R66, R68, R73, R79) -/

theorem encodeFrame_congr {P P' : Nat → Nat → Byte} (h : ∀ r c, r < 64 → c < 128 → P' r c = P r c) (t : Byte) {k : Nat}
    (hk : k < 1024) : encodeFrame P' t k = encodeFrame P t k :=
  pack_congr fun i hi => by rw [h _ _ (by simp only [Config.bandH, Config.cols]; omega) (Nat.mod_lt _ (by decide))]

theorem decodeFrame_congr {K K' : Nat → Byte} (h : ∀ k, k < 1024 → K' k = K k) {r c : Nat} (hr : r < 64)
    (hc : c < 128) : decodeFrame K' r c = decodeFrame K r c := by
  rw [decodeFrame, decodeFrame, h _ (by simp only [Config.bandH, Config.cols]; omega)]

/-- A column of the rotated sheet holds cells of the sheet, below `8 * WIDTH`. -/
theorem State.glyphColumn_congr {s s' : State} (hw : s'.width = s.width)
    (h : ∀ a, a < 8 * s.width.toNat → s'.pixAt a = s.pixAt a) {c : Nat} (hc : c < s.width.toNat) :
    s'.glyphColumn c = s.glyphColumn c :=
  pack_congr fun i hi => by
    have hrow : (7 - i) * s.width.toNat ≤ 7 * s.width.toNat := Nat.mul_le_mul_right _ (by omega)
    rw [State.conditioned, State.conditioned, hw, h _ (by omega)]

theorem State.glyphColumns_congr {s s' : State} (hw : s'.width = s.width)
    (h : ∀ a, a < 8 * s.width.toNat → s'.pixAt a = s.pixAt a) : s'.glyphColumns = s.glyphColumns := by
  rw [State.glyphColumns, State.glyphColumns, hw]
  exact List.map_congr_left fun c hc => State.glyphColumn_congr hw h (List.mem_range.mp hc)

theorem State.charString_congr {s s' : State} (hl : s'.cslen = s.cslen)
    (h : ∀ k, k < s.cslen.toNat → s'.charsetAt k = s.charsetAt k) : s'.charString = s.charString := by
  rw [State.charString, State.charString, hl]
  exact List.map_congr_left fun k hk => h k (List.mem_range.mp hk)

/-- The elements a scan stores do not depend on the state it is stored in. -/
theorem State.scanned_gbytesAt (s : State) {sc : Scan} {k : Nat} (hk : k < sc.bytes.length) :
    (s.scanned sc).gbytesAt k = sc.bytes[k] :=
  State.gbytesAt_of_table (s := s) (t := s.scanned sc) rfl hk

theorem State.scanned_goffsAt (s : State) {sc : Scan} {k : Nat} (hk : k < sc.offsets.length) :
    (s.scanned sc).goffsAt k = BitVec.ofNat 16 sc.offsets[k] := by
  rw [State.goffsAt_of_table (s := s) (t := s.scanned sc) rfl (by simpa using hk), List.getElem_map]

theorem State.charmapped_cmaptabAt_eq (s : State) {c : Nat} (hc : c < 256) :
    s.charmapped.cmaptabAt c = charmapEntry s.charString c := by
  rw [s.charmapped_cmaptabAt hc, s.charmapEntry_charString hc]

/-- Settles O27: the tables are functions of the frame and threshold, of the packed bytes, of the columns, and of the
character string. -/
theorem bulkResultsDependOnlyOnInputs : Obligations.BulkResultsDependOnlyOnInputs := by
  refine ⟨fun s s' hw hh hw' hh' ht h => ⟨_, _, exec_fenc hw hh, exec_fenc hw' hh', fun k hk => ?_⟩,
    fun s s' hl hl' h => ⟨_, _, exec_fdec hl, exec_fdec hl', fun a ha => ?_⟩, fun s s' hh hh' hw hw' hcs h => ?_,
    fun s s' hcs h => ⟨_, _, exec_cmap s, exec_cmap s', fun c hc => ?_⟩⟩
  · rw [s.encoded_pkdAt hk, s'.encoded_pkdAt hk, ht]
    exact encodeFrame_congr (fun r c hr hc => h _ (by simp only [Config.cols]; omega)) _ hk
  · rw [s.decoded_pixAt ha, s'.decoded_pixAt ha, decodeFrame_congr h (by omega) (by omega)]
  · have hsc := within_scan s.glyphColumns
    have hn : s.glyphColumns.length + 1 < 65535 := by rw [s.glyphColumns_length]; omega
    have hexec' := exec_gscan (s := s') (congrArg BitVec.toNat hh') (hw' ▸ hw)
    rw [State.glyphColumns_congr hw' h] at hexec'
    refine ⟨_, _, exec_gscan (congrArg BitVec.toNat hh) hw, hexec', rfl, rfl, congrArg (glyphWarn · _) hcs,
      fun k hk => ?_, fun k hk => ?_⟩
    · rw [State.scanned_gbcnt hsc hn] at hk
      rw [s.scanned_gbytesAt hk, s'.scanned_gbytesAt hk]
    · rw [State.scanned_gocnt hsc hn] at hk
      rw [s.scanned_goffsAt hk, s'.scanned_goffsAt hk]
  · rw [s.charmapped_cmaptabAt_eq hc, s'.charmapped_cmaptabAt_eq hc, State.charString_congr hcs h]

/-! ## Sequences of bulk commands (R81, R106) -/

/-- Settles O25: neither command reads or writes what the other writes, so both orders end in the state with both
results. -/
theorem gscanAndCmapCommute : Obligations.GscanAndCmapCommute := by
  intro s hh hw
  have hh' : s.height.toNat = 8 := congrArg BitVec.toNat hh
  exact ⟨_, execAll_pair (exec_gscan hh' hw) (exec_cmap _),
    execAll_pair (exec_cmap s) (exec_gscan (s := s.charmapped) hh' hw)⟩

/-- Settles O47: `FDEC` leaves the height 64, a sheet has the height 8, and `FENC` leaves the length 1024. -/
theorem bufferReuseFaults : Obligations.BufferReuseFaults := by
  refine ⟨fun s hl => ⟨_, exec_fdec hl,
      execAll_pair (exec_fdec hl) (execGscan_of_wrong_height (by simp [State.decoded]))⟩,
    fun s hh => execFenc_of_wrong_dims (.inr (by rw [hh]; decide)),
    fun s hw hh _ => ⟨_, exec_fenc hw hh, rfl, _, execAll_pair (exec_fenc hw hh) (exec_fdec rfl), rfl⟩⟩

/-! ## The flags are no operands (R29) -/

/-- The state with other values in the flags. -/
def State.withFlags (s : State) (halt gwarn : Bool) (err : BitVec 4) : State :=
  { s with halt := halt, gwarn := gwarn, err := err }

/-- On each of its paths a command does the same with other flags: neither a check nor a table looks at them. -/
theorem exec_withFlags (i : Instr) (s : State) (halt gwarn : Bool) (err : BitVec 4) :
    ∃ t u, exec i s = .next t ∧ exec i (s.withFlags halt gwarn err) = .next u ∧
      t = u.withFlags t.halt t.gwarn t.err := by
  cases i with
  | fenc =>
    by_cases h : s.width.toNat = 128 ∧ s.height.toNat = 64
    · exact ⟨_, _, execFenc_of_dims h.1 h.2, execFenc_of_dims h.1 h.2, rfl⟩
    · have h' : s.width.toNat ≠ 128 ∨ s.height.toNat ≠ 64 := by omega
      exact ⟨_, _, execFenc_of_wrong_dims h', execFenc_of_wrong_dims h', rfl⟩
  | fdec =>
    by_cases h : s.len.toNat = 1024
    · exact ⟨_, _, execFdec_of_len h, execFdec_of_len h, rfl⟩
    · exact ⟨_, _, execFdec_of_wrong_len h, execFdec_of_wrong_len h, rfl⟩
  | gscan =>
    by_cases hh : s.height.toNat = 8
    · rcases Nat.lt_or_ge 1024 s.width.toNat with hw | hw
      · exact ⟨_, _, execGscan_of_wide_sheet hh hw, execGscan_of_wide_sheet hh hw, rfl⟩
      · exact ⟨_, _, execGscan_of_sheet hh hw, execGscan_of_sheet hh hw, rfl⟩
    · exact ⟨_, _, execGscan_of_wrong_height hh, execGscan_of_wrong_height hh, rfl⟩
  | nop | packc | unpkc | selr | sern | cmap => exact ⟨_, _, rfl, rfl, rfl⟩

/-- Settles O39: the state with other flags is `withFlags`, and the results differ in the flags alone. -/
theorem noCommandReadsAFlag : Obligations.NoCommandReadsAFlag := exec_withFlags

end Sys2Proof.Machine
end

