-- ==== Sys2Proof/Proofs/Writers.lean ====
section
/-! PROOF. Who writes what: the 'written by' columns of the state tables (spec/10_state.md R11 to R25). -/

namespace Sys2Proof.Machine

/-- A field of the block that differs in `t` has been written by the next step of `s`, and that step is one of its
writers: a command (`State.issued`) or a host write (`State.writesNext`). -/
structure OnlyWriters (s t : State) : Prop where
  cin : t.cin ≠ s.cin → s.writesNext (.reg 7)
  pb : t.pb ≠ s.pb → s.issued = some .packc ∨ s.writesNext (.reg 8)
  cout : t.cout ≠ s.cout → s.issued = some .unpkc
  rsel : t.rsel ≠ s.rsel →
    s.issued = some .sern ∨ (∃ r, r < 8 ∧ s.issued = some (.selr r)) ∨ s.writesNext (.reg 9)
  thresh : t.thresh ≠ s.thresh → s.writesNext (.reg 2)
  width : t.width ≠ s.width → s.issued = some .fdec ∨ s.writesNext (.reg 3)
  height : t.height ≠ s.height → s.issued = some .fdec ∨ s.writesNext (.reg 4)
  len : t.len ≠ s.len → s.issued = some .fenc ∨ s.writesNext (.reg 5)
  cslen : t.cslen ≠ s.cslen → s.writesNext (.reg 6)
  results : t.gbcnt ≠ s.gbcnt ∨ t.gocnt ≠ s.gocnt ∨ t.gwarn ≠ s.gwarn → s.issued = some .gscan
  pix : t.pix ≠ s.pix → s.issued = some .fdec ∨ ∃ a, s.writesNext (.pix a)
  pkd : t.pkd ≠ s.pkd → s.issued = some .fenc ∨ ∃ a, s.writesNext (.pkd a)
  gbytes : t.gbytes ≠ s.gbytes → s.issued = some .gscan ∨ ∃ a, s.writesNext (.gbytes a)
  goffs : t.goffs ≠ s.goffs → s.issued = some .gscan ∨ ∃ a, s.writesNext (.goffs a)
  charset : t.charset ≠ s.charset → ∃ a, s.writesNext (.charset a)
  cmaptab : t.cmaptab ≠ s.cmaptab → s.issued = some .cmap ∨ ∃ a, s.writesNext (.cmaptab a)
  status : t.halt ≠ s.halt ∨ t.err ≠ s.err → s.writesNext (.reg 0)

/-- Where the block does not change there is nothing to say. The lemmas below take this for all the fields but those a
command or a write moves. -/
theorem OnlyWriters.refl (s : State) : OnlyWriters s s := by
  constructor <;> simp

theorem OnlyWriters.setInbox (s : State) (rest : List HostStep) : OnlyWriters s (s.setInbox rest) :=
  { OnlyWriters.refl s with }

section
variable {s : State} {rest : List HostStep}

theorem OnlyWriters.raise (hw : s.writesNext (.reg 0)) (c : Cause) : OnlyWriters s ((s.setInbox rest).raise c) :=
  { OnlyWriters.refl s with status := fun _ => hw }

/-- A command issued by a write to `CMD` writes what the tables name it as the writer of. -/
theorem OnlyWriters.exec {i : Instr} {t : State} (hi : s.issued = some i) (hwf : WellFormed i)
    (hw : s.writesNext (.reg 0)) (ht : exec i (s.setInbox rest) = .next t) : OnlyWriters s t := by
  have hs := OnlyWriters.refl s
  obtain ⟨rfl, rfl⟩ | ⟨rfl, rfl⟩ | ⟨rfl, rfl⟩ | ⟨r, rfl, rfl⟩ | ⟨rfl, rfl⟩ | ⟨-, -, rfl⟩ | ⟨rfl, -, -, rfl⟩ |
    ⟨-, -, rfl⟩ | ⟨rfl, -, rfl⟩ | ⟨-, -, rfl⟩ | ⟨-, -, -, rfl⟩ | ⟨rfl, -, -, rfl⟩ | ⟨rfl, rfl⟩ := exec_cases ht
  -- NOP, PACKC, UNPKC, SELR, SERN
  · exact .setInbox s rest
  · exact { hs with pb := fun _ => .inl hi }
  · exact { hs with cout := fun _ => hi }
  · exact { hs with rsel := fun _ => .inr (.inl ⟨r, of_decide_eq_true hwf, hi⟩) }
  · exact { hs with rsel := fun _ => .inl hi }
  -- FENC
  · exact .raise hw _
  · exact { hs with pkd := fun _ => .inl hi, len := fun _ => .inl hi }
  -- FDEC
  · exact .raise hw _
  · exact { hs with pix := fun _ => .inl hi, width := fun _ => .inl hi, height := fun _ => .inl hi }
  -- GSCAN
  · exact .raise hw _
  · exact .raise hw _
  · exact { hs with gbytes := fun _ => .inl hi, goffs := fun _ => .inl hi, results := fun _ => hi }
  -- CMAP
  · exact { hs with cmaptab := fun _ => .inl hi }

/-- A host write of a register is the one writer of a parameter, `CIN`, `PB` or `RSEL` beside the commands. -/
theorem OnlyWriters.writeReg {r : Reg} (hw : s.writesNext (.reg r.number)) (v : Nat) :
    OnlyWriters s ((s.setInbox rest).writeReg r v) := by
  have hs := OnlyWriters.refl s
  cases r with
  | thresh => exact { hs with thresh := fun _ => hw }
  | width => exact { hs with width := fun _ => .inr hw }
  | height => exact { hs with height := fun _ => .inr hw }
  | len => exact { hs with len := fun _ => .inr hw }
  | cslen => exact { hs with cslen := fun _ => hw }
  | cin => exact { hs with cin := fun _ => hw }
  | pb => exact { hs with pb := fun _ => .inr hw }
  | rsel => exact { hs with rsel := fun _ => .inr (.inr hw) }
  | cmd | status | spix | gbcnt | gocnt | cout => exact .setInbox s rest

theorem State.issued_of_decode {v : Nat} {i : Instr} (hs : s.halt = false)
    (hb : s.inbox = .write (.reg 0) v :: rest) (hd : decode (BitVec.ofNat 8 v) = .ok i) : s.issued = some i := by
  simp [State.issued, hs, hb, hd]

theorem OnlyWriters.hostWrite {l : Loc} {v : Nat} {t : State} (hb : s.inbox = .write l v :: rest)
    (ht : hostWrite l v (s.setInbox rest) = .next t) : OnlyWriters s t := by
  have hw : s.writesNext l := ⟨v, by rw [hb, List.head?_cons]⟩
  have hs := OnlyWriters.refl s
  obtain ⟨-, rfl⟩ | ⟨hh, rfl, hissue⟩ | ⟨-, r, -, rfl, rfl⟩ | ⟨-, _, -, -, rfl⟩ | ⟨-, hmem⟩ := hostWrite_cases ht
  · exact .setInbox s rest
  · cases hd : decode (BitVec.ofNat 8 v) with
    | ok i =>
      rw [issue_of_ok hd] at hissue
      exact .exec (State.issued_of_decode hh hb hd) (wellFormed_and_encode_of_decode hd).1 hw hissue
    | error e =>
      rw [issue_of_error hd, Host.Outcome.next.injEq] at hissue
      exact hissue ▸ .raise hw _
  · exact .writeReg hw v
  · exact .setInbox s rest
  · obtain ⟨a, rfl, rfl⟩ | ⟨a, rfl, rfl⟩ | ⟨a, rfl, rfl⟩ | ⟨a, rfl, rfl⟩ | ⟨a, rfl, rfl⟩ | ⟨a, rfl, rfl⟩ := hmem
    · exact { hs with pix := fun _ => .inr ⟨a, hw⟩ }
    · exact { hs with pkd := fun _ => .inr ⟨a, hw⟩ }
    · exact { hs with gbytes := fun _ => .inr ⟨a, hw⟩ }
    · exact { hs with goffs := fun _ => .inr ⟨a, hw⟩ }
    · exact { hs with charset := fun _ => ⟨a, hw⟩ }
    · exact { hs with cmaptab := fun _ => .inr ⟨a, hw⟩ }

end

/-- A step that is not a reset. -/
theorem step_resets_or_onlyWriters {s t : State} (ht : step s = .next t) : s.resetsNext ∨ OnlyWriters s t := by
  obtain ⟨-, rfl⟩ | ⟨x, rest, hb, ⟨rfl, -⟩ | ⟨l, -, rfl⟩ | ⟨l, v, rfl, hwrite⟩⟩ := step_cases ht
  · exact .inr (.refl _)
  · exact .inl (by rw [State.resetsNext, hb, List.head?_cons])
  · exact .inr { OnlyWriters.refl s with }
  · exact .inr (.hostWrite hb hwrite)

/-- Settles O38: a step is a reset, or whatever it changes it changes as one of the writers of `OnlyWriters`. -/
theorem eachStateIsWrittenOnlyByItsWriters : Obligations.EachStateIsWrittenOnlyByItsWriters := fun _ _ ht =>
  (step_resets_or_onlyWriters ht).imp_right fun h => ⟨h.cin, h.pb, h.cout, h.rsel, h.thresh, h.width, h.height, h.len,
    h.cslen, h.results, h.pix, h.pkd, h.gbytes, h.goffs, h.charset, h.cmaptab, h.status⟩

end Sys2Proof.Machine
end

