-- ==== Sys2Proof/Proofs/HostPrograms.lean ====
section
/-! PROOF. Two of the pseudo-instructions, run as host steps: `SERBYTE` and `LOADPIX` (spec/30_encoding.md R52;
spec/40_bitcolumn.md R64; spec/20_memory.md R31). -/

namespace Sys2Proof.Machine

/-! ## The host steps of R51 -/

theorem hostStep_command {s : State} (hs : s.halt = false) {i : Instr} (hi : WellFormed i) :
    hostStep (command i) s = exec i s :=
  calc
    _ = hostWrite (.reg 0) (encode i).toNat s := rfl
    _ = exec i s := by rw [hostWrite_cmd hs, BitVec.ofNat_toNat, BitVec.setWidth_eq, issue_of_ok (decode_encode hi)]

theorem hostStep_wrReg {s : State} (hs : s.halt = false) {r : Reg} (hr : r ≠ .cmd) (v : Nat) :
    hostStep (wrReg r v) s = .next (s.writeReg r v) :=
  hostWrite_reg hs (Reg.ofNumber_number r) hr v

theorem hostStep_rdReg (s : State) (r : Reg) : hostStep (rdReg r) s = .next (s.reply (s.readReg r)) := by
  rw [rdReg, hostStep, hostRead_reg (Reg.ofNumber_number r)]

/-! ## SERBYTE (R52) -/

/-- The block with row `r` selected. -/
def State.atRow (s : State) (r : BitVec 3) : State := { s with rsel := r }

theorem State.readReg_setInbox (s : State) (rest : List HostStep) (r : Reg) :
    (s.setInbox rest).readReg r = s.readReg r := by
  cases r <;> rfl

theorem State.setInbox_reply (s : State) (rest : List HostStep) (v : Half) :
    (s.setInbox rest).reply v = (s.reply v).setInbox rest := rfl

/-- A command that selects a row, and the read of a port on that row. -/
theorem runSteps_selectRow_read {s : State} (hs : s.halt = false) {i : Instr} (hi : WellFormed i) {row : BitVec 3}
    (hrow : ∀ rest, exec i (s.setInbox rest) = .next ((s.atRow row).setInbox rest)) (port : Reg) (n : Nat)
    (rest : List HostStep) :
    runSteps (n + 2) (s.setInbox (command i :: rdReg port :: rest))
      = runSteps n (((s.atRow row).reply ((s.atRow row).readReg port)).setInbox rest) := by
  have hselect : hostStep (command i) (s.setInbox (rdReg port :: rest))
      = .next ((s.atRow row).setInbox (rdReg port :: rest)) :=
    (hostStep_command (s := s.setInbox (rdReg port :: rest)) hs hi).trans (hrow _)
  have hread := hostStep_rdReg ((s.atRow row).setInbox rest) port
  rw [State.readReg_setInbox, State.setInbox_reply] at hread
  exact (runSteps_cons (n + 1) hselect).trans (runSteps_cons n hread)

theorem row_add_succ (row : BitVec 3) (n : Nat) :
    row + BitVec.ofNat 3 (n + 1) = row + 1 + BitVec.ofNat 3 n := by
  rw [BitVec.ofNat_add, BitVec.add_comm (BitVec.ofNat 3 n), BitVec.add_assoc]
  rfl

/-- What the host reads from `port` on row `row` and the rows that follow it, modulo 8, `n` reads in all. -/
def State.rowReads (s : State) (port : Reg) (row : BitVec 3) (n : Nat) : List Half :=
  (List.range n).map fun i => (s.atRow (row + BitVec.ofNat 3 i)).readReg port

theorem State.rowReads_succ (s : State) (port : Reg) (row : BitVec 3) (n : Nat) :
    s.rowReads port row (n + 1) = (s.atRow row).readReg port :: s.rowReads port (row + 1) n := by
  rw [State.rowReads, State.rowReads, List.range_succ_eq_map, List.map_cons, List.map_map, BitVec.add_zero]
  exact congrArg _ (List.map_congr_left fun i _ => by rw [Function.comp_apply, row_add_succ])

/-- What the rows show depends neither on the row selected now nor on earlier replies. -/
theorem State.rowReads_atRow_reply (s : State) (current : BitVec 3) (v : Half) (port : Reg) (row : BitVec 3) (n : Nat) :
    ((s.atRow current).reply v).rowReads port row n = s.rowReads port row n :=
  List.map_congr_left fun _ _ => by cases port <;> rfl

/-- `SERN` and a read, `n` times. -/
theorem runSteps_sern_reads (n : Nat) {s : State} (hs : s.halt = false) (port : Reg) :
    runSteps (2 * n) (s.setInbox (List.replicate n [command .sern, rdReg port]).flatten) = .next { s with
      rsel := s.rsel + BitVec.ofNat 3 n, inbox := [], replies := s.replies ++ s.rowReads port (s.rsel + 1) n } := by
  induction n generalizing s with
  | zero => simp [runSteps_zero, State.setInbox, State.rowReads]
  | succ n ih =>
    have hfirst := runSteps_selectRow_read hs (i := .sern) (row := s.rsel + 1) rfl (fun _ => rfl) port (2 * n)
      (List.replicate n [command .sern, rdReg port]).flatten
    have hrest := ih (s := (s.atRow (s.rsel + 1)).reply ((s.atRow (s.rsel + 1)).readReg port)) hs
    rw [State.rowReads_atRow_reply] at hrest
    rw [row_add_succ, State.rowReads_succ, List.append_cons]
    exact hfirst.trans hrest

theorem runSteps_serByte {s : State} (hs : s.halt = false) (port : Reg) :
    runSteps 16 { s with inbox := serByte port } = .next { s with
      rsel := 7, inbox := [], replies := s.replies ++ s.rowReads port 0 8 } := by
  have hfirst := runSteps_selectRow_read hs (i := .selr 0) (row := 0) rfl (fun _ => rfl) port (2 * 7)
    (List.replicate 7 [command .sern, rdReg port]).flatten
  have hrest := runSteps_sern_reads 7 (s := (s.atRow 0).reply ((s.atRow 0).readReg port)) hs port
  rw [State.rowReads_atRow_reply] at hrest
  rw [State.rowReads_succ, List.append_cons]
  exact hfirst.trans hrest

theorem State.rowReads_spix (s : State) :
    s.rowReads .spix 0 8 = (List.range 8).map fun i => (unpack s.pb i).setWidth 16 := by
  refine List.map_congr_left fun i hi => congrArg (BitVec.setWidth 16) ?_
  have hrow : 0 + BitVec.ofNat 3 i = BitVec.ofNat 3 i := BitVec.zero_add _
  rw [hrow]
  exact State.spix_of_rsel (s := s.atRow (BitVec.ofNat 3 i)) (rowSelect_toNat (List.mem_range.mp hi))

theorem State.status_atRow_bit (s : State) {i : Nat} (hi : i < 8) :
    ((s.atRow (BitVec.ofNat 3 i)).readReg .status).getLsbD 2 = s.pb.getLsbD i := by
  rw [State.readReg, BitVec.getLsbD_setWidth, State.status_getLsbD_two,
    State.sout_of_rsel (s := s.atRow (BitVec.ofNat 3 i)) (rowSelect_toNat hi)]
  rfl

/-- Settles O8: the rows are read in the order 0 to 7, and row `i` shows bit `i` of `PB`. -/
theorem serialReadsTopRowFirst : Obligations.SerialReadsTopRowFirst := by
  refine fun s hs => ⟨?_, ⟨_, runSteps_serByte hs .status, fun i hi => ?_⟩, _, rfl, fun i => ?_⟩
  · rw [runSteps_serByte hs, s.rowReads_spix]
  · refine ⟨_, ?_, s.status_atRow_bit hi⟩
    rw [List.getElem?_append_right (Nat.le_add_right _ _), Nat.add_sub_cancel_left]
    simp [State.rowReads, hi]
  · rw [Fin.getElem_fin, Vector.getElem_ofFn]

/-! ## LOADPIX (R52) -/

theorem Memory.read_writeCells_cellsFrom {α : Type} (m : Memory α) (k : Nat) (vs : List α) (a : Nat) :
    (m.writeCells (cellsFrom k vs)).read a = if k ≤ a ∧ a < k + vs.length then vs[a - k]? else m.read a := by
  induction vs generalizing k m with
  | nil => rw [if_neg (by simp only [List.length_nil]; omega)]; rfl
  | cons v vs ih =>
    rw [cellsFrom, Memory.writeCells_cons, ih, Memory.read_write, List.length_cons]
    rcases Nat.lt_trichotomy a k with h | rfl | h
    · rw [if_neg (by omega), if_neg (by omega), if_neg (by omega)]
    · rw [if_neg (by omega), if_pos rfl, if_pos (by omega), Nat.sub_self, List.getElem?_cons_zero]
    · rw [if_neg (Nat.ne_of_gt h), show a - k = (a - (k + 1)) + 1 by omega, List.getElem?_cons_succ]
      exact if_congr (by omega) rfl rfl

/-- The host's writes of the cells `k`, `k + 1`, … of `PIX`. -/
def pixWrites (k : Nat) (data : List Byte) : List HostStep :=
  (data.zipIdx k).map fun x => .write (.pix (BitVec.ofNat 13 x.2)) x.1.toNat

theorem runSteps_pixWrites {k : Nat} {data : List Byte} (hk : k + data.length ≤ 8192) {s : State}
    (hs : s.halt = false) : runSteps data.length (s.setInbox (pixWrites k data)) = .next { s with
      pix := s.pix.writeCells (cellsFrom k data), inbox := [] } := by
  induction data generalizing k s with
  | nil => rfl
  | cons v data ih =>
    rw [List.length_cons] at hk
    have hcell : (BitVec.ofNat 13 k).toNat = k := Nat.mod_eq_of_lt (by omega)
    have hwrite : hostStep (.write (.pix (BitVec.ofNat 13 k)) v.toNat) (s.setInbox (pixWrites (k + 1) data)) = _ :=
      hostWrite_pix (s := s.setInbox (pixWrites (k + 1) data)) hs (BitVec.ofNat 13 k) v.toNat
    rw [hcell, BitVec.ofNat_toNat, BitVec.setWidth_eq] at hwrite
    exact (runSteps_cons data.length hwrite).trans (ih (s := s.setPix k v) (by omega) hs)

/-- What `LOADPIX` leaves (`runSteps_loadPix`). -/
def State.loaded (s : State) (h w : Nat) (data : List Byte) : State :=
  { s with
    width := BitVec.ofNat 16 w, height := BitVec.ofNat 16 h, pix := s.pix.writeCells (cellsFrom 0 data), inbox := [] }

theorem runSteps_loadPix {s : State} (hs : s.halt = false) {h w : Nat} {data : List Byte} (hfit : h * w ≤ 8192)
    (hlen : data.length = h * w) :
    runSteps (h * w + 2) { s with inbox := loadPix h w data } = .next (s.loaded h w data) := by
  have hprogram : loadPix h w data = wrReg .width w :: wrReg .height h :: pixWrites 0 data := by
    rw [loadPix, List.take_of_length_le hlen.le]
    rfl
  have hwidth := hostStep_wrReg (s := s.setInbox (wrReg .height h :: pixWrites 0 data)) hs (r := .width) (by decide) w
  have hheight := hostStep_wrReg (s := (s.writeReg .width w).setInbox (pixWrites 0 data)) hs (r := .height)
    (by decide) h
  have hcells := runSteps_pixWrites (k := 0) (data := data) (by omega)
    (s := (s.writeReg .width w).writeReg .height h) hs
  rw [hprogram, ← hlen]
  exact (runSteps_cons (data.length + 1) hwidth).trans ((runSteps_cons data.length hheight).trans hcells)

theorem State.loaded_pixAt (s : State) (h w : Nat) {data : List Byte} {a : Nat} (ha : a < data.length) :
    some ((s.loaded h w data).pixAt a) = data[a]? := by
  rw [State.pixAt, State.loaded, Memory.read_writeCells_cellsFrom, if_pos (by omega), Nat.sub_zero,
    List.getElem?_eq_getElem ha, Option.getD_some]

theorem State.loaded_pixAt_beyond (s : State) (h w : Nat) {data : List Byte} {a : Nat} (ha : data.length ≤ a) :
    (s.loaded h w data).pixAt a = s.pixAt a := by
  rw [State.pixAt, State.loaded, Memory.read_writeCells_cellsFrom, if_neg (by omega), State.pixAt]

/-- Settles O50: two register writes, then the writes of `h * w` cells in row-major order. -/
theorem loadPixPlacesTheBitmap : Obligations.LoadPixPlacesTheBitmap := by
  intro s h w data hs _ hw hfit hlen
  refine ⟨_, runSteps_loadPix hs hfit hlen, rfl, fun r c hr hc => ?_, fun a ha _ => ?_⟩
  · have hpitch : (s.loaded h w data).width.toNat = w := Nat.mod_eq_of_lt hw
    have hcell : r * w + c < h * w := by
      have hrows := Nat.mul_le_mul_right w (Nat.succ_le_of_lt hr)
      rw [Nat.succ_mul] at hrows
      omega
    rw [State.pixel, hpitch, s.loaded_pixAt h w (hlen ▸ hcell)]
  · exact s.loaded_pixAt_beyond h w (hlen ▸ ha)

end Sys2Proof.Machine
end
